-- ==== Sys2Proof/Word.lean ====
section
/-! DEFINITION. The word of the machine: 16 bits, unsigned (R7, R51), with arithmetic modulo 2^16 (R10), and the 8-bit
byte of the two ports and of the program image (R6, R233). -/

namespace Sys2Proof

/-- The 16-bit word: the addressable unit, the register and the instruction (R7, R51, R80). `+` wraps, `&&&` and `~~~` are
the bitwise operations (R10). -/
abbrev Word := BitVec 16

/-- One character of the ports (R6) and one byte of a program image (R233). -/
abbrev Byte := BitVec 8

end Sys2Proof
end

