-- ==== Sys2Proof/Syntax.lean ====
section
/-! DEFINITION. The instruction set as syntax: one constructor for each row of spec/opcode_table.json, its operands the
fields of R82 and R83. -/

namespace Sys2Proof

/-- The eight general registers (R20). -/
inductive Reg where
  | r0 | r1 | r2 | r3 | r4 | r5 | r6 | r7
deriving DecidableEq, Repr

/-- The instructions of R84. A register operand is named by the field it comes from: `a` is bits 11-9, `b` bits 8-6, `c`
bits 2-0 (R81, R83). An immediate is its field, not yet extended. Ignored bits are no operands (R86), but for RTI and the
unknown opcode, whose conditions record the whole instruction word (R200): there `x` is bits 11-0 (log entry 17). -/
inductive Instr where
  /-- ADD, register form (R110). -/
  | addReg (a b c : Reg)
  /-- ADD, immediate form (R110). -/
  | addImm (a b : Reg) (imm : BitVec 5)
  /-- AND, register form (R111). -/
  | andReg (a b c : Reg)
  /-- AND, immediate form (R111). -/
  | andImm (a b : Reg) (imm : BitVec 5)
  /-- NOT (R112). -/
  | not (a b : Reg)
  /-- BR with the condition mask `nzp` (R120). -/
  | br (nzp : BitVec 3) (off : BitVec 9)
  /-- JMP; `RET` is `jmp .r7` (R121, R89). -/
  | jmp (b : Reg)
  /-- JSR, PC-relative (R122). -/
  | jsr (off : BitVec 11)
  /-- JSRR, through a register (R123). -/
  | jsrr (b : Reg)
  /-- LD (R130). -/
  | ld (a : Reg) (off : BitVec 9)
  /-- LDI (R131). -/
  | ldi (a : Reg) (off : BitVec 9)
  /-- LDR (R132). -/
  | ldr (a b : Reg) (off : BitVec 6)
  /-- LEA (R133). -/
  | lea (a : Reg) (off : BitVec 9)
  /-- ST (R140). -/
  | st (a : Reg) (off : BitVec 9)
  /-- STI (R141). -/
  | sti (a : Reg) (off : BitVec 9)
  /-- STR (R142). -/
  | str (a b : Reg) (off : BitVec 6)
  /-- RTI (R150). -/
  | rti (x : BitVec 12)
  /-- TRAP (R151). -/
  | trap (vect : BitVec 8)
  /-- The unknown opcode 0xD (R158). -/
  | unknown (x : BitVec 12)
deriving DecidableEq, Repr

end Sys2Proof
end

