-- ==== Sys2Proof/WellFormed.lean ====
section
/-! DEFINITION. What a term must satisfy to be an instruction or a program image of the spec. -/

namespace Sys2Proof

/-- The signed value of an `n`-bit field lies in `lo .. hi`. -/
def fieldInRange {n : Nat} (f : BitVec n) (lo hi : Int) : Bool := lo ≤ f.toInt && f.toInt ≤ hi

/-- Every immediate lies in the range R83 gives for its field. The operand types carry the widths of R82, so no term of
`Instr` fails this check (R85: no word is rejected for the value of a field); it states R83's ranges against the syntax. -/
def Instr.wellFormed : Instr → Bool
  | .addReg _ _ _ => true
  | .addImm _ _ imm => fieldInRange imm (-16) 15
  | .andReg _ _ _ => true
  | .andImm _ _ imm => fieldInRange imm (-16) 15
  | .not _ _ => true
  | .br nzp off => nzp.toNat ≤ 7 && fieldInRange off (-256) 255
  | .jmp _ => true
  | .jsr off => fieldInRange off (-1024) 1023
  | .jsrr _ => true
  | .ld _ off => fieldInRange off (-256) 255
  | .ldi _ off => fieldInRange off (-256) 255
  | .ldr _ _ off => fieldInRange off (-32) 31
  | .lea _ off => fieldInRange off (-256) 255
  | .st _ off => fieldInRange off (-256) 255
  | .sti _ off => fieldInRange off (-256) 255
  | .str _ _ off => fieldInRange off (-32) 31
  | .rti _ => true
  | .trap vect => vect.toNat ≤ 0xFF
  | .unknown _ => true

/-- The load address of a program image: its first two bytes, big-endian (R233). -/
def imageStart : List Byte → Nat
  | hi :: lo :: _ => hi.toNat * 256 + lo.toNat
  | _ => 0

/-- A program image holds its load address (R233: not fewer than 2 bytes). -/
def imageHasAddress (image : List Byte) : Bool := 2 ≤ image.length

/-- The bytes after the load address are whole words (R233: not an odd number of them). -/
def imageHasWholeWords (image : List Byte) : Bool := image.length % 2 == 0

/-- The program body ends inside the memory: `start + n ≤ 0x10000` (R58, R233). -/
def imageFits (image : List Byte) : Bool := imageStart image + (image.length - 2) / 2 ≤ 0x10000

/-- A program image that is no LoadFailure (R233, decision D23). -/
def imageWellFormed (image : List Byte) : Bool :=
  imageHasAddress image && imageHasWholeWords image && imageFits image

end Sys2Proof
end

