-- ==== Sys2Proof/Decode.lean ====
section
/-! DEFINITION. From an instruction word to the instruction it is and back, by the formats of R82 and the opcode map of
R84. Decoding is total (R85). -/

namespace Sys2Proof

/-- The register a 3-bit field names (R81, R83). -/
def regOfBits (f : BitVec 3) : Reg :=
  if f = 0 then .r0 else if f = 1 then .r1 else if f = 2 then .r2 else if f = 3 then .r3
  else if f = 4 then .r4 else if f = 5 then .r5 else if f = 6 then .r6 else .r7

/-- The 3-bit field that names a register. -/
def regBits : Reg → BitVec 3
  | .r0 => 0 | .r1 => 1 | .r2 => 2 | .r3 => 3 | .r4 => 4 | .r5 => 5 | .r6 => 6 | .r7 => 7

/-- `op = ir[15:12]` (R81). -/
def opField (ir : Word) : BitVec 4 := ir.extractLsb' 12 4

/-- The register `A = ir[11:9]` (R81). -/
def fieldA (ir : Word) : Reg := regOfBits (ir.extractLsb' 9 3)

/-- The register `B = ir[8:6]` (R81). -/
def fieldB (ir : Word) : Reg := regOfBits (ir.extractLsb' 6 3)

/-- The register `C = ir[2:0]` (R83). -/
def fieldC (ir : Word) : Reg := regOfBits (ir.extractLsb' 0 3)

/-- The mask `nzp = ir[11:9]` (R83). -/
def fieldNzp (ir : Word) : BitVec 3 := ir.extractLsb' 9 3

/-- `ir[5]`, which picks the form of ADD and AND: 0 register, 1 immediate (R84). -/
def fieldForm (ir : Word) : BitVec 1 := ir.extractLsb' 5 1

/-- `ir[11]`, which picks JSR (1) or JSRR (0) (R84). -/
def fieldPcForm (ir : Word) : BitVec 1 := ir.extractLsb' 11 1

/-- `ir[4:0]`, the field of imm5 (R83). -/
def fieldImm5 (ir : Word) : BitVec 5 := ir.extractLsb' 0 5

/-- `ir[5:0]`, the field of off6 (R83). -/
def fieldOff6 (ir : Word) : BitVec 6 := ir.extractLsb' 0 6

/-- `ir[8:0]`, the field of off9 (R83). -/
def fieldOff9 (ir : Word) : BitVec 9 := ir.extractLsb' 0 9

/-- `ir[10:0]`, the field of off11 (R83). -/
def fieldOff11 (ir : Word) : BitVec 11 := ir.extractLsb' 0 11

/-- `ir[7:0]`, the field of vect8 (R83). -/
def fieldVect8 (ir : Word) : BitVec 8 := ir.extractLsb' 0 8

/-- `ir[11:0]`, which RTI and the unknown opcode record with their word (R200). -/
def fieldRest (ir : Word) : BitVec 12 := ir.extractLsb' 0 12

/-- The instruction a word decodes to (R84, R85): `op` alone chooses, but that `ir[5]` picks the form of ADD and AND and
`ir[11]` picks JSR or JSRR. Every word decodes; the sixteenth opcode, 0xF, is TRAP. -/
def decode (ir : Word) : Instr :=
  match opField ir with
  | 0x0#4 => .br (fieldNzp ir) (fieldOff9 ir)
  | 0x1#4 =>
    if fieldForm ir = 1 then .addImm (fieldA ir) (fieldB ir) (fieldImm5 ir) else .addReg (fieldA ir) (fieldB ir) (fieldC ir)
  | 0x2#4 => .ld (fieldA ir) (fieldOff9 ir)
  | 0x3#4 => .st (fieldA ir) (fieldOff9 ir)
  | 0x4#4 => if fieldPcForm ir = 1 then .jsr (fieldOff11 ir) else .jsrr (fieldB ir)
  | 0x5#4 =>
    if fieldForm ir = 1 then .andImm (fieldA ir) (fieldB ir) (fieldImm5 ir) else .andReg (fieldA ir) (fieldB ir) (fieldC ir)
  | 0x6#4 => .ldr (fieldA ir) (fieldB ir) (fieldOff6 ir)
  | 0x7#4 => .str (fieldA ir) (fieldB ir) (fieldOff6 ir)
  | 0x8#4 => .rti (fieldRest ir)
  | 0x9#4 => .not (fieldA ir) (fieldB ir)
  | 0xA#4 => .ldi (fieldA ir) (fieldOff9 ir)
  | 0xB#4 => .sti (fieldA ir) (fieldOff9 ir)
  | 0xC#4 => .jmp (fieldB ir)
  | 0xD#4 => .unknown (fieldRest ir)
  | 0xE#4 => .lea (fieldA ir) (fieldOff9 ir)
  | _ => .trap (fieldVect8 ir)

/-- A word with the field `f` in its bits from `pos` up, every other bit 0. -/
def place {n : Nat} (f : BitVec n) (pos : Nat) : Word := f.setWidth 16 <<< pos

/-- The word of an instruction, by the formats of R82 with every ignored bit 0. -/
def encode : Instr → Word
  | .addReg a b c => place 0x1#4 12 ||| place (regBits a) 9 ||| place (regBits b) 6 ||| place (regBits c) 0
  | .addImm a b imm => place 0x1#4 12 ||| place (regBits a) 9 ||| place (regBits b) 6 ||| place 1#1 5 ||| place imm 0
  | .andReg a b c => place 0x5#4 12 ||| place (regBits a) 9 ||| place (regBits b) 6 ||| place (regBits c) 0
  | .andImm a b imm => place 0x5#4 12 ||| place (regBits a) 9 ||| place (regBits b) 6 ||| place 1#1 5 ||| place imm 0
  | .not a b => place 0x9#4 12 ||| place (regBits a) 9 ||| place (regBits b) 6
  | .br nzp off => place 0x0#4 12 ||| place nzp 9 ||| place off 0
  | .jmp b => place 0xC#4 12 ||| place (regBits b) 6
  | .jsr off => place 0x4#4 12 ||| place 1#1 11 ||| place off 0
  | .jsrr b => place 0x4#4 12 ||| place (regBits b) 6
  | .ld a off => place 0x2#4 12 ||| place (regBits a) 9 ||| place off 0
  | .ldi a off => place 0xA#4 12 ||| place (regBits a) 9 ||| place off 0
  | .ldr a b off => place 0x6#4 12 ||| place (regBits a) 9 ||| place (regBits b) 6 ||| place off 0
  | .lea a off => place 0xE#4 12 ||| place (regBits a) 9 ||| place off 0
  | .st a off => place 0x3#4 12 ||| place (regBits a) 9 ||| place off 0
  | .sti a off => place 0xB#4 12 ||| place (regBits a) 9 ||| place off 0
  | .str a b off => place 0x7#4 12 ||| place (regBits a) 9 ||| place (regBits b) 6 ||| place off 0
  | .rti x => place 0x8#4 12 ||| place x 0
  | .trap vect => place 0xF#4 12 ||| place vect 0
  | .unknown x => place 0xD#4 12 ||| place x 0

/-- A word from its two bytes in the byte order of a program image, bits 15-8 first (R51, R233). -/
def wordOfBytes (hi lo : Byte) : Word := place hi 8 ||| place lo 0

/-- Bits 15-8 of a word. -/
def highByte (w : Word) : Byte := w.extractLsb' 8 8

/-- Bits 7-0 of a word: the character a word stands for on the OUTPUT port (R51). -/
def lowByte (w : Word) : Byte := w.extractLsb' 0 8

/-- Why the bytes of an image give no instruction. -/
inductive DecodeError where
  /-- Fewer than the two bytes of one instruction word are left (R80, R233). -/
  | truncated
deriving DecidableEq, Repr

/-- The first instruction of a stream of image bytes, and the bytes after it. -/
def decodeBytes : List Byte → Except DecodeError (Instr × List Byte)
  | hi :: lo :: rest => .ok (decode (wordOfBytes hi lo), rest)
  | _ => .error .truncated

/-- The instruction read from an instruction word given as a number: bits at `nbits` and above are 0, and a length beyond
the one instruction word there is (R80) is refused. -/
def decodeTableWord (nbits w : Nat) : Option Instr :=
  let ir : Word := BitVec.ofNat 16 (w % 2 ^ nbits)
  if nbits ≤ 16 then
    match decodeBytes [highByte ir, lowByte ir] with
    | .ok (i, _) => some i
    | .error _ => none
  else none

end Sys2Proof
end

