-- ==== Sys2Proof/Config.lean ====
section
/-! DEFINITION. The open parameters of R8: constants of a machine whose values the spec does not give. Each is opaque, so
that nothing can be proved of its value and a claim holds for every value R8 admits. -/

namespace Sys2Proof

/-- `reg_init`: what a register holds at reset (R8, R23, decision D3). DESIGN CHOICE: log entry 1. -/
opaque Config.regInit : Reg → Word

/-- `cc_init`: what the condition-code register holds at reset (R8, R28, decision D4). DESIGN CHOICE: log entry 2. -/
opaque Config.ccInit : BitVec 3

/-- Bits 14-0 of `kbsr_ready` (R54, decision D6). DESIGN CHOICE: log entry 3. -/
opaque Config.kbsrLow : BitVec 15

/-- `kbsr_ready`: what every read of 0xFE00 returns; its bit 15 is 1 (R8, R54). -/
def Config.kbsrReady : Word := 0x8000 ||| Config.kbsrLow.setWidth 16

/-- `getc_char`: what TRAP 0x20 writes to R0 (R8, R153, decision D8). DESIGN CHOICE: log entry 4. -/
opaque Config.getcChar : Word

/-- `getc_sets_cc`: whether TRAP 0x20 updates the condition codes (R8, R153, decision D9). DESIGN CHOICE: log entry 5. -/
opaque Config.getcSetsCc : Bool

end Sys2Proof
end

