-- ==== Sys2Proof/Machine/State.lean ====
section
/-! DEFINITION. Everything the spec gives the machine to hold, as plain data, the reasons a step can stop, and the machine
right after reset. -/

namespace Sys2Proof.Machine

/-- The register file: eight 16-bit words (R20). No register is hardwired, no bank is switched (R22). -/
structure Regs where
  r0 : Word
  r1 : Word
  r2 : Word
  r3 : Word
  r4 : Word
  r5 : Word
  r6 : Word
  r7 : Word
deriving DecidableEq, Repr

/-- The memory: 65536 words (R50), held as the two bytes of each word whose value is not what an unlisted byte reads as.
Word `a` is byte `2 * a` (bits 15-8) and byte `2 * a + 1` (bits 7-0), the order of a program image (R233). No instruction
sees a byte (R51), so the order is a matter of representation. DESIGN CHOICE: log entry 13. -/
structure Memory where
  cells : List Host.Cell
deriving DecidableEq, Repr

/-- The two ports an I/O failure can be on (R6, R200). -/
inductive Port where
  | input
  | output
deriving DecidableEq, Repr

/-- The error conditions with the information each records (R200). -/
inductive Condition where
  /-- Opcode 0xD; records the instruction word. A clean halt, not a fault (R158). -/
  | unknownOpcode (ir : Word)
  /-- RTI; records the instruction word (R150). -/
  | unsupportedInstruction (ir : Word)
  /-- A read of 0xFE02 met the byte 0x03; records the address (R55). -/
  | inputCancelled (addr : Word)
  /-- A program image was refused, before any step (R233). -/
  | loadFailure
  /-- The host answered Fail; records the port (R205). -/
  | ioFailure (port : Port)
deriving DecidableEq, Repr

/-- An event of the OUTPUT port (R6). Notices and diagnostics carry no text (R156, R216). -/
inductive OutputEvent where
  | char (b : Byte)
  | haltNotice
  | diagnostic (c : Condition)
deriving DecidableEq, Repr

/-- The host's answer to one INPUT request (R6, R55). -/
inductive InputAnswer where
  | byte (b : Byte)
  | fail
deriving DecidableEq, Repr

/-- Where inside an instruction the engine waits for the answer to an INPUT request (R33, R91). Every such wait is a read of
0xFE02 (R55). -/
inductive WaitPoint where
  /-- In the fetch (R90). -/
  | fetch
  /-- In the read of the value that LD, LDR or LDI writes to `a` (R130, R131, R132). -/
  | load (a : Reg)
  /-- In LDI's read of its pointer; the value goes to `a` (R131). -/
  | loadPointer (a : Reg)
  /-- In STI's read of its pointer; the word stored is that of `a` (R141). -/
  | storePointer (a : Reg)
  /-- In TRAP 0x22's read of the next word of its string (R155). -/
  | string
deriving DecidableEq, Repr

/-- The state of the CORE (R4, R29, R30, R33, R34). The last two fields are the model's own: the host's moves, a draw the
model takes at each port operation (R8, R205). -/
structure State where
  /-- General registers (R20). -/
  regs : Regs
  /-- Program counter (R24). -/
  pc : Word
  /-- Condition codes N, Z, P in bits 2, 1, 0 (R25). -/
  cc : BitVec 3
  /-- Halted flag (R29). -/
  halted : Bool
  /-- Memory (R50). -/
  mem : Memory
  /-- The pending INPUT request, if there is one. Between two steps the other fields are then as they were before the blocked
  instruction, the ports apart (R33). -/
  wait : Option WaitPoint
  /-- The OUTPUT port's history, oldest event first (R33). -/
  output : List OutputEvent
  /-- The host's answers to the coming INPUT requests; at its end the host has not answered. DESIGN CHOICE: log entry 6. -/
  input : List InputAnswer
  /-- How many more events the host accepts before it fails one, `none` where it accepts all. DESIGN CHOICE: log entry 7. -/
  outputRoom : Option Nat
deriving DecidableEq, Repr

/-- The faults: the conditions that end a run in `Aborted(cause)` (R201). Each carries what R200 records and the OUTPUT
history emitted before it, which stays emitted (R201, R204); nothing else survives an abort. Log entry 10. -/
inductive Fault where
  /-- Raised by RTI, always (R150). Safe: the spec ends the run here. -/
  | unsupportedInstruction (ir : Word) (output : List OutputEvent)
  /-- Raised by any read of 0xFE02 whose input byte is 0x03 (R55). Safe: the spec ends the run here. -/
  | inputCancelled (addr : Word) (output : List OutputEvent)
  /-- Raised where the host answers Fail, on the INPUT port by a read of 0xFE02, on the OUTPUT port by TRAP 0x21, 0x22, 0x25
  or the unknown opcode (R205). Safe: the spec ends the run here. -/
  | ioFailure (port : Port) (output : List OutputEvent)
deriving DecidableEq, Repr

/-- The refusals. -/
inductive Refusal where
  /-- An instruction without a meaning, raised by its arm of `exec` alone. No arm raises it in this model. Safe. -/
  | notModelled (mnemonic : String)
deriving DecidableEq, Repr

/-- What a step of this machine answers. -/
abbrev Result := Host.Outcome State Fault Refusal

/-- A newly constructed engine, for given contents of the registers and of `cc` (R230, R231): `pc` at 0x3000, running, every
memory word 0x0000, no request pending, no output yet. The host's moves stand at the values log entries 6 and 7 name. -/
def State.construct (regInit : Reg → Word) (ccInit : BitVec 3) : State where
  regs :=
    { r0 := regInit .r0, r1 := regInit .r1, r2 := regInit .r2, r3 := regInit .r3,
      r4 := regInit .r4, r5 := regInit .r5, r6 := regInit .r6, r7 := regInit .r7 }
  pc := 0x3000
  cc := ccInit
  halted := false
  mem := { cells := [] }
  wait := none
  output := []
  input := []
  outputRoom := none

/-- The machine right after reset (R231), its registers and `cc` at the open parameters `reg_init` and `cc_init` (R23,
R28). -/
def State.reset : State := State.construct Config.regInit Config.ccInit

end Sys2Proof.Machine
end

