-- ==== Sys2Proof/Machine/Memory.lean ====
section
/-! DEFINITION. The store itself: bytes by address in one canonical form, and the 16-bit words the machine sees (R50, R51). -/

namespace Sys2Proof.Machine

/-- What a byte that is not listed reads as: every word is 0x0000 at construction (R59). -/
def unlistedByte : Byte := 0

/-- The byte listed at `k`, or the unlisted byte. -/
def cellsRead : List Host.Cell → Nat → Byte
  | [], _ => unlistedByte
  | (key, b) :: rest, k => if k = key then b else cellsRead rest k

/-- Unlist the byte at `k`. -/
def cellsErase : List Host.Cell → Nat → List Host.Cell
  | [], _ => []
  | (key, b) :: rest, k => if k = key then cellsErase rest k else (key, b) :: cellsErase rest k

/-- List byte `v` at `k`, before the first greater address. -/
def cellsInsert : List Host.Cell → Nat → Byte → List Host.Cell
  | [], k, v => [(k, v)]
  | (key, b) :: rest, k, v => if k < key then (k, v) :: (key, b) :: rest else (key, b) :: cellsInsert rest k v

/-- Make byte `k` read as `v`, listing it only where `v` is not what an unlisted byte reads as. -/
def cellsWrite (cells : List Host.Cell) (k : Nat) (v : Byte) : List Host.Cell :=
  if v = unlistedByte then cellsErase cells k else cellsInsert (cellsErase cells k) k v

/-- The canonical form: addresses strictly rising, inside the 65536 words, and no entry that reads as an unlisted byte. -/
abbrev cellsCanonical (cells : List Host.Cell) : Prop :=
  cells.Pairwise (fun c d => c.1 < d.1) ∧ ∀ c ∈ cells, c.1 < 2 * 65536 ∧ c.2 ≠ unlistedByte

/-- The memory is in canonical form. -/
def Memory.wf (m : Memory) : Bool := decide (cellsCanonical m.cells)

/-- The word stored at address `a` (R50), without interception. -/
def Memory.read (m : Memory) (a : Word) : Word :=
  wordOfBytes (cellsRead m.cells (2 * a.toNat)) (cellsRead m.cells (2 * a.toNat + 1))

/-- Store `v` at address `a` (R57). -/
def Memory.write (m : Memory) (a : Word) (v : Word) : Memory :=
  { cells := cellsWrite (cellsWrite m.cells (2 * a.toNat) (highByte v)) (2 * a.toNat + 1) (lowByte v) }

/-- Copy words into the memory from address `a` on (R58); addresses wrap, which `State.load` rules out. -/
def Memory.load (m : Memory) (a : Word) : List Word → Memory
  | [] => m
  | w :: rest => (m.write a w).load (a + 1) rest

end Sys2Proof.Machine
end

