-- ==== Sys2Proof/Machine/Ops.lean ====
section
/-! DEFINITION. The operations the instructions share: registers, intercepting reads, writes, the two ports, the halt, the
trap entry and the aborts. -/

namespace Sys2Proof.Machine

/-- The device addresses (R7, R61). -/
def inputStatusAddr : Word := 0xFE00
def inputDataAddr : Word := 0xFE02

/-- Register `r` of the register file. -/
def Regs.get (g : Regs) : Reg → Word
  | .r0 => g.r0 | .r1 => g.r1 | .r2 => g.r2 | .r3 => g.r3 | .r4 => g.r4 | .r5 => g.r5 | .r6 => g.r6 | .r7 => g.r7

/-- The register file with register `r` holding `v`. -/
def Regs.set (g : Regs) (r : Reg) (v : Word) : Regs :=
  match r with
  | .r0 => { g with r0 := v } | .r1 => { g with r1 := v } | .r2 => { g with r2 := v } | .r3 => { g with r3 := v }
  | .r4 => { g with r4 := v } | .r5 => { g with r5 := v } | .r6 => { g with r6 := v } | .r7 => { g with r7 := v }

/-- `x[r]` (R12, R20). -/
def State.reg (s : State) (r : Reg) : Word := s.regs.get r

/-- `x[r] <- v` (R12, R20). -/
def State.setReg (s : State) (r : Reg) (v : Word) : State := { s with regs := s.regs.set r v }

/-- `pc <- target` (R12). -/
def State.setPc (s : State) (target : Word) : State := { s with pc := target }

/-- `pc <- pc + 1`, the fetch increment, which wraps (R24, R90). -/
def State.advance (s : State) : State := s.setPc (s.pc + 1)

/-- `MemWrite(a, 1, v)`: stores at every address, the two device addresses among them, with no side effect (R57). -/
def State.store (s : State) (a v : Word) : State := { s with mem := s.mem.write a v }

/-- `halt()`: set the halted flag (R12, R29). -/
def State.halt (s : State) : State := { s with halted := true }

/-- Trap entry: R7 receives the current PC, and nothing else changes (R151, R207). -/
def State.enterTrap (s : State) : State := s.setReg .r7 s.pc

/-- Inside an instruction: it comes to wait at `p` for the host's answer (R33, R55). `holdBack` makes of it the blocked engine
that a step shows. -/
def State.waitAt (s : State) (p : WaitPoint) : State := { s with wait := some p }

/-- The three behaviours an address has when it is read (R53, R54, R55, R61). -/
inductive AddressKind where
  | ordinary
  | inputStatus
  | inputData
deriving DecidableEq, Repr

/-- The address map (R61): exactly two addresses are intercepted. -/
def addressKind (a : Word) : AddressKind :=
  if a = inputStatusAddr then .inputStatus else if a = inputDataAddr then .inputData else .ordinary

/-- Input translation (R56): a carriage return becomes a newline, every other byte is unchanged. -/
def translateInput (b : Byte) : Byte := if b = 0x0D then 0x0A else b

/-- What a read comes to: a value and the state after it, a wait for the host, or a fault. -/
inductive Reading where
  | value (v : Word) (s : State)
  | waits
  | stops (f : Fault)
deriving DecidableEq, Repr

/-- A read of 0xFE02 (R55): it takes one answer of the host. `Fail` and the byte 0x03 end the run; any other byte is
translated and zero-extended; without an answer the engine waits. -/
def inputRead (s : State) : Reading :=
  match s.input with
  | [] => .waits
  | .fail :: _ => .stops (.ioFailure .input s.output)
  | .byte b :: rest =>
    if b = 0x03 then .stops (.inputCancelled inputDataAddr s.output)
    else .value ((translateInput b).setWidth 16) { s with input := rest }

/-- `MemRead(a, 1)`, the intercepting read (R53, R54, R55). -/
def memRead (a : Word) (s : State) : Reading :=
  match addressKind a with
  | .ordinary => .value (s.mem.read a) s
  | .inputStatus => .value Config.kbsrReady s
  | .inputData => inputRead s

/-- Read `a` and go on with the value, or wait at `p`, or stop (R55, R91). -/
def readThen (a : Word) (p : WaitPoint) (s : State) (k : Word → State → Result) : Result :=
  match memRead a s with
  | .value v s' => k v s'
  | .waits => .next (s.waitAt p)
  | .stops f => .fault f

/-- `Output(e)`: append `e` to the OUTPUT history and go on, or stop where the host answers Fail (R12, R205). -/
def outputThen (e : OutputEvent) (s : State) (k : State → Result) : Result :=
  match s.outputRoom with
  | none => k { s with output := s.output ++ [e] }
  | some (n + 1) => k { s with output := s.output ++ [e], outputRoom := some n }
  | some 0 => .fault (.ioFailure .output s.output)

/-- `raise UnsupportedInstruction(ir)`: the run ends at once (R150, R201). -/
def raiseUnsupported (ir : Word) (s : State) : Result := .fault (.unsupportedInstruction ir s.output)

/-- The host answers one more INPUT request (R6). -/
def State.answer (s : State) (a : InputAnswer) : State := { s with input := s.input ++ [a] }

/-- The numeric code of a condition (R200, decision D17). -/
def conditionCode : Condition → Nat
  | .unknownOpcode _ => 1
  | .unsupportedInstruction _ => 2
  | .inputCancelled _ => 3
  | .loadFailure => 4
  | .ioFailure _ => 5

/-- The condition a fault reports (R200, R201). -/
def faultCondition : Fault → Condition
  | .unsupportedInstruction ir _ => .unsupportedInstruction ir
  | .inputCancelled addr _ => .inputCancelled addr
  | .ioFailure port _ => .ioFailure port

/-- The OUTPUT history a fault leaves emitted (R201, R204). -/
def faultOutput : Fault → List OutputEvent
  | .unsupportedInstruction _ out => out
  | .inputCancelled _ out => out
  | .ioFailure _ out => out

end Sys2Proof.Machine
end

