-- ==== Sys2Proof/Machine/Flags.lean ====
section
/-! DEFINITION. The condition codes: N in bit 2, Z in bit 1, P in bit 0 (R25), and the one rule that writes them (R26). -/

namespace Sys2Proof.Machine

/-- The condition codes of a value (R26): Z iff it is 0, N iff bit 15 is 1, P iff neither. -/
def ccOf (v : Word) : BitVec 3 :=
  if v = 0 then 0b010 else if v.getLsbD 15 then 0b100 else 0b001

/-- `setcc(r, v)`: write `v` to register `r` and the condition codes of `v` to `cc` (R26). -/
def State.setcc (s : State) (r : Reg) (v : Word) : State := { s.setReg r v with cc := ccOf v }

/-- BR's test: some bit of the mask is set in `cc` (R120). -/
def ccMatches (nzp : BitVec 3) (s : State) : Bool := s.cc &&& nzp != 0

end Sys2Proof.Machine
end

