-- ==== Sys2Proof/Machine/Operands.lean ====
section
/-! DEFINITION. The operand forms of R83: extended immediates, PC-relative and base-relative addresses. -/

namespace Sys2Proof.Machine

/-- `sext_n(f)` (R11): the field with all bits above bit `n - 1` set where bit `n - 1` is 1, else unchanged. -/
def sext {n : Nat} (f : BitVec n) : Word :=
  if f.msb then f.setWidth 16 ||| ((0xFFFF : Word) <<< n) else f.setWidth 16

/-- `pc + off9` with the current PC, modulo 2^16 (R83). -/
def pcRelative (off : BitVec 9) (s : State) : Word := s.pc + sext off

/-- `x[b] + off6`, modulo 2^16 (R83). -/
def baseRelative (b : Reg) (off : BitVec 6) (s : State) : Word := s.reg b + sext off

end Sys2Proof.Machine
end

