-- ==== Sys2Proof/Machine/Control.lean ====
section
/-! DEFINITION. Control transfer (41_control.md): BR, JMP, JSR, JSRR. The `pc` they see is the current PC (R90); none of
them writes `cc` (R27). -/

namespace Sys2Proof.Machine

/-- BR (R120). -/
def execBr (nzp : BitVec 3) (off : BitVec 9) (s : State) : Result :=
  .next (s.setPc (if ccMatches nzp s then pcRelative off s else s.pc))

/-- JMP, and RET where `b` is R7 (R121). -/
def execJmp (b : Reg) (s : State) : Result := .next (s.setPc (s.reg b))

/-- JSR (R122): the link is written first; the target is computed from the current PC. -/
def execJsr (off : BitVec 11) (s : State) : Result := .next ((s.setReg .r7 s.pc).setPc (s.pc + sext off))

/-- JSRR (R123): the link is written first and the base read after it, so `JSRR R7` goes on at the next instruction
(decision D11, log entry 19). -/
def execJsrr (b : Reg) (s : State) : Result :=
  let linked := s.setReg .r7 s.pc
  .next (linked.setPc (linked.reg b))

end Sys2Proof.Machine
end

