-- ==== Sys2Proof/Machine/Load.lean ====
section
/-! DEFINITION. Loads and LEA (42_load.md). Every read is the intercepting one (R63). -/

namespace Sys2Proof.Machine

/-- Read the value at `addr` into register `a` through setcc: how LD, LDI and LDR end (R130, R131, R132). -/
def loadFrom (addr : Word) (a : Reg) (s : State) : Result :=
  readThen addr (.load a) s fun v s' => .next (s'.setcc a v)

/-- Read a pointer at `addr`, then the value at the pointer into register `a` (R131). -/
def loadIndirectFrom (addr : Word) (a : Reg) (s : State) : Result :=
  readThen addr (.loadPointer a) s fun p s' => loadFrom p a s'

/-- LD (R130). -/
def execLd (a : Reg) (off : BitVec 9) (s : State) : Result := loadFrom (pcRelative off s) a s

/-- LDI (R131). -/
def execLdi (a : Reg) (off : BitVec 9) (s : State) : Result := loadIndirectFrom (pcRelative off s) a s

/-- LDR (R132). -/
def execLdr (a b : Reg) (off : BitVec 6) (s : State) : Result := loadFrom (baseRelative b off s) a s

/-- LEA (R133): no memory access. -/
def execLea (a : Reg) (off : BitVec 9) (s : State) : Result := .next (s.setcc a (pcRelative off s))

end Sys2Proof.Machine
end

