-- ==== Sys2Proof/Machine/Operate.lean ====
section
/-! DEFINITION. The operate instructions (40_operate.md): ADD, AND, NOT. Sources are read before the destination is written
(R237). -/

namespace Sys2Proof.Machine

/-- ADD, register form (R110). -/
def execAddReg (a b c : Reg) (s : State) : Result := .next (s.setcc a (s.reg b + s.reg c))

/-- ADD, immediate form (R110). -/
def execAddImm (a b : Reg) (imm : BitVec 5) (s : State) : Result := .next (s.setcc a (s.reg b + sext imm))

/-- AND, register form (R111). -/
def execAndReg (a b c : Reg) (s : State) : Result := .next (s.setcc a (s.reg b &&& s.reg c))

/-- AND, immediate form (R111). -/
def execAndImm (a b : Reg) (imm : BitVec 5) (s : State) : Result := .next (s.setcc a (s.reg b &&& sext imm))

/-- NOT (R112). -/
def execNot (a b : Reg) (s : State) : Result := .next (s.setcc a (~~~ s.reg b))

end Sys2Proof.Machine
end

