-- ==== Sys2Proof/Machine/Store.lean ====
section
/-! DEFINITION. Stores (43_store.md). No store writes a register or `cc`. -/

namespace Sys2Proof.Machine

/-- Read a pointer at `addr`, then store register `a` at the pointer (R141). -/
def storeIndirectFrom (addr : Word) (a : Reg) (s : State) : Result :=
  readThen addr (.storePointer a) s fun p s' => .next (s'.store p (s'.reg a))

/-- ST (R140). -/
def execSt (a : Reg) (off : BitVec 9) (s : State) : Result := .next (s.store (pcRelative off s) (s.reg a))

/-- STI (R141). -/
def execSti (a : Reg) (off : BitVec 9) (s : State) : Result := storeIndirectFrom (pcRelative off s) a s

/-- STR (R142). -/
def execStr (a b : Reg) (off : BitVec 6) (s : State) : Result := .next (s.store (baseRelative b off s) (s.reg a))

end Sys2Proof.Machine
end

