-- ==== Sys2Proof/Machine/System.lean ====
section
/-! DEFINITION. System instructions (44_system.md): RTI, TRAP with the Trap Dispatcher's vectors, the unknown opcode. -/

namespace Sys2Proof.Machine

/-- RTI is not supported: it aborts the run, recording its instruction word (R150, R200). -/
def execRti (x : BitVec 12) (s : State) : Result := raiseUnsupported (encode (.rti x)) s

/-- TRAP 0x20 (R153): the placeholder `getc_char` goes to R0; the INPUT port is not used. -/
def trapGetc (s : State) : Result :=
  .next (if Config.getcSetsCc then s.setcc .r0 Config.getcChar else s.setReg .r0 Config.getcChar)

/-- TRAP 0x21 (R154): one character, bits 7-0 of R0. -/
def trapOut (s : State) : Result := outputThen (.char (lowByte (s.reg .r0))) s .next

/-- How many reads the string at `a` can take before the engine ends or waits: those up to the next read of 0xFE02, and
65536 more for each answer of the host. The addresses wrap, so every 65536 reads pass 0xFE02 once (R155, log entry 22). -/
def stringReads (a : Word) (s : State) : Nat := (inputDataAddr - a).toNat + 1 + 65536 * s.input.length

/-- The loop of TRAP 0x22 (R155) with `fuel` reads left. With the fuel of `stringReads` it never runs out, so the outcome
at 0 is never taken. -/
def stringLoop : Nat → Word → State → Result
  | 0, _, s => .next (s.waitAt .string)
  | fuel + 1, a, s =>
    readThen a .string s fun w s' =>
      if w = 0 then .next s'
      else outputThen (.char (lowByte w)) s' fun s'' => stringLoop fuel (a + 1) s''

/-- Print the string at `a` (R155): the low byte of each word, up to the first word that is 0x0000. -/
def printFrom (a : Word) (s : State) : Result := stringLoop (stringReads a s) a s

/-- TRAP 0x22 (R155). -/
def trapPuts (s : State) : Result := printFrom (s.reg .r0) s

/-- TRAP 0x25 (R156): the completion notice, then the halt. -/
def trapHalt (s : State) : Result := outputThen .haltNotice s fun s' => .next s'.halt

/-- TRAP with any other vector does nothing more (R157). -/
def trapOther (s : State) : Result := .next s

/-- The Trap Dispatcher (R151). -/
def dispatchTrap (vect : BitVec 8) (s : State) : Result :=
  if vect = 0x20 then trapGetc s
  else if vect = 0x21 then trapOut s
  else if vect = 0x22 then trapPuts s
  else if vect = 0x25 then trapHalt s
  else trapOther s

/-- TRAP (R151): R7 receives the current PC, then the vector's behaviour runs. `pc` is not changed (R152). -/
def execTrap (vect : BitVec 8) (s : State) : Result := dispatchTrap vect s.enterTrap

/-- The unknown opcode (R158): a diagnostic with the instruction word, then the halt. -/
def execUnknown (x : BitVec 12) (s : State) : Result :=
  outputThen (.diagnostic (.unknownOpcode (encode (.unknown x)))) s fun s' => .next s'.halt

end Sys2Proof.Machine
end

