-- ==== Sys2Proof/Machine/Dispatch.lean ====
section
/-! DEFINITION. One arm for each instruction, in the order of spec/opcode_table.json (R84). The state is the one after the
fetch: its `pc` is the current PC (R90). -/

namespace Sys2Proof.Machine

def exec (i : Instr) (s : State) : Host.Outcome State Fault Refusal :=
  match i with
  | .addReg a b c => Sys2Proof.Machine.execAddReg a b c s
  | .addImm a b imm => Sys2Proof.Machine.execAddImm a b imm s
  | .andReg a b c => Sys2Proof.Machine.execAndReg a b c s
  | .andImm a b imm => Sys2Proof.Machine.execAndImm a b imm s
  | .not a b => Sys2Proof.Machine.execNot a b s
  | .br nzp off => Sys2Proof.Machine.execBr nzp off s
  | .jmp b => Sys2Proof.Machine.execJmp b s
  | .jsr off => Sys2Proof.Machine.execJsr off s
  | .jsrr b => Sys2Proof.Machine.execJsrr b s
  | .ld a off => Sys2Proof.Machine.execLd a off s
  | .ldi a off => Sys2Proof.Machine.execLdi a off s
  | .ldr a b off => Sys2Proof.Machine.execLdr a b off s
  | .lea a off => Sys2Proof.Machine.execLea a off s
  | .st a off => Sys2Proof.Machine.execSt a off s
  | .sti a off => Sys2Proof.Machine.execSti a off s
  | .str a b off => Sys2Proof.Machine.execStr a b off s
  | .rti x => Sys2Proof.Machine.execRti x s
  | .trap vect => Sys2Proof.Machine.execTrap vect s
  | .unknown x => Sys2Proof.Machine.execUnknown x s

end Sys2Proof.Machine
end

