-- ==== Sys2Proof/Machine/Cycle.lean ====
section
/-! DEFINITION. The instruction cycle (R90) and how an instruction goes on after a wait for the host (R91). -/

namespace Sys2Proof.Machine

/-- One instruction from a fetch at `addr` (R90): fetch through the intercepting read, advance `pc`, decode, execute. -/
def fetchFrom (addr : Word) (s : State) : Result :=
  readThen addr .fetch s fun ir s' => exec (decode ir) s'.advance

/-- One instruction (R90). -/
def cycle (s : State) : Result := fetchFrom s.pc s

/-- Go on, inside an instruction, from the read of 0xFE02 at `p` to the instruction's end (R91). -/
def goOnFrom (p : WaitPoint) (s : State) : Result :=
  match p with
  | .fetch => fetchFrom inputDataAddr s
  | .load a => loadFrom inputDataAddr a s
  | .loadPointer a => loadIndirectFrom inputDataAddr a s
  | .storePointer a => storeIndirectFrom inputDataAddr a s
  | .string => printFrom inputDataAddr s

/-- What the instruction blocked at `p` has done to the state before its read, which no one sees while it is blocked (R33):
nothing before the fetch has ended, then the fetch increment, and the link of TRAP 0x22. -/
def State.inFlight (s : State) (p : WaitPoint) : State :=
  match p with
  | .fetch => s
  | .load _ => s.advance
  | .loadPointer _ => s.advance
  | .storePointer _ => s.advance
  | .string => s.advance.enterTrap

/-- The end of a pending request: the engine waits no more. -/
def State.clearWait (s : State) : State := { s with wait := none }

/-- The engine blocked at `p`: registers, `pc`, `cc`, memory and the halted flag as they were when the instruction began, for
none of its changes is visible before it completes; the ports as `t`, the state inside the instruction, has them (R33). -/
def State.blockedAt (s : State) (p : WaitPoint) (t : State) : State :=
  { s with wait := some p, output := t.output, input := t.input, outputRoom := t.outputRoom }

/-- What an instruction begun in `s` shows: its outcome where it completes, and the blocked engine where it waits (R33, R91;
log entry 8). -/
def holdBack (s : State) (r : Result) : Result :=
  match r with
  | .next t =>
    match t.wait with
    | none => .next t
    | some p => .next (s.blockedAt p t)
  | .fault f => .fault f
  | .refused x => .refused x

/-- What a running engine does next: go on from its wait, or begin the next instruction. -/
def continueRun (s : State) : Result :=
  match s.wait with
  | some p => goOnFrom p (s.clearWait.inFlight p)
  | none => cycle s

/-- One turn of the run loop (R92): a halted engine takes no step, so its state stays as it is (log entry 9). -/
def runStep (s : State) : Result := if s.halted then .next s else holdBack s (continueRun s)

/-- Place an instruction word, its bits from `nbits` on 0, where the next step fetches, in an engine that runs and waits for
nothing. -/
def placeFetchWord (s : State) (nbits w : Nat) : State :=
  { s with
    mem := s.mem.write s.pc (BitVec.ofNat 16 (w % 2 ^ nbits))
    halted := false
    wait := none }

end Sys2Proof.Machine
end

