-- ==== Sys2Proof/Machine/Step.lean ====
section
/-! DEFINITION. One step of the machine, and where a next instruction is put. -/

namespace Sys2Proof.Machine

/-- One step: one instruction to its end, or to its wait for the host, where none of it is visible yet (R33, R91, R92). -/
def step (s : State) : Host.Outcome State Fault Refusal := runStep s

/-- The state with an instruction word stored where the next step fetches (log entry 27). -/
def State.withFetchWord (s : State) (nbits w : Nat) : State := placeFetchWord s nbits w

end Sys2Proof.Machine
end

