-- ==== Sys2Proof/Machine/Boot.lean ====
section
/-! DEFINITION. How a program comes into the memory before the first step (R58, R232, R233, R234). -/

namespace Sys2Proof.Machine

/-- The `load(start, words)` contract (R58): copies words, interception aside, and leaves `pc` alone; words that would
pass the end of memory are a LoadFailure (decision D23). -/
def State.load (s : State) (start : Word) (words : List Word) : Except Condition State :=
  if start.toNat + words.length ≤ 0x10000 then .ok { s with mem := s.mem.load start words } else .error .loadFailure

/-- The words of an image body: its bytes two at a time, big-endian (R233). -/
def imageWords : List Byte → List Word
  | hi :: lo :: rest => wordOfBytes hi lo :: imageWords rest
  | _ => []

/-- Load a program image (R233): a big-endian load address, then the body; a malformed image is a LoadFailure. -/
def State.loadImage (s : State) (image : List Byte) : Except Condition State :=
  if imageWellFormed image then s.load (BitVec.ofNat 16 (imageStart image)) (imageWords (image.drop 2)) else .error .loadFailure

/-- The boot order up to the run loop (R232): construct, then load. -/
def boot (image : List Byte) : Except Condition State := State.reset.loadImage image

end Sys2Proof.Machine
end

