-- ==== Sys2Proof/Safety.lean ====
section
/-! DEFINITION. The words claims are made in: run status, clean ends, what a state keeps, the invariant of the machine. -/

namespace Sys2Proof.Machine

/-- The run status (R29). -/
inductive RunStatus where
  | running
  | halted
  | aborted (cause : Condition)
deriving DecidableEq, Repr

/-- The status of an engine that has not aborted (R29). -/
def State.status (s : State) : RunStatus := if s.halted then .halted else .running

/-- The status a step leaves (R29, R201); a refusal is no status of the machine. -/
def resultStatus : Result → Option RunStatus
  | .next s => some s.status
  | .fault f => some (.aborted (faultCondition f))
  | .refused _ => none

/-- `k` steps from `s` end in the state `t`, none of them aborting. -/
def Reaches (s : State) : Nat → State → Prop
  | 0, t => s = t
  | k + 1, t => ∃ u, step s = .next u ∧ Reaches u k t

/-- A run from `s` ends well: it reaches a halted state (R216). -/
def HaltsCleanly (s : State) : Prop := ∃ k t, Reaches s k t ∧ t.status = .halted

/-- The engine is about to begin an instruction: it runs and no request is pending. -/
abbrev State.Ready (s : State) : Prop := s.halted = false ∧ s.wait = none

/-- Exactly one of N, Z, P is set (R26, R28). -/
abbrev ExactlyOneFlag (cc : BitVec 3) : Prop := cc = 0b100 ∨ cc = 0b010 ∨ cc = 0b001

/-- The invariant of the machine: the memory keeps its canonical form, a halted engine waits for nothing (R29, R33), and an
engine that waits in a fetch fetches at 0xFE02 (R55, R90). -/
def State.Inv (s : State) : Prop :=
  s.mem.wf = true ∧ (s.halted = true → s.wait = none) ∧ (s.wait = some .fetch → s.pc = 0xFE02)

/-- The address is read without interception (R53, R61). -/
abbrev Ordinary (a : Word) : Prop := a ≠ 0xFE00 ∧ a ≠ 0xFE02

/-- The host accepts the next OUTPUT event (R205). -/
abbrev State.HostAccepts (s : State) : Prop := s.outputRoom ≠ some 0

/-- Every register but `r` is as before. -/
def RegsKeptBut (r : Reg) (s t : State) : Prop := ∀ q, q ≠ r → t.reg q = s.reg q

/-- Every register is as before. -/
def RegsKept (s t : State) : Prop := ∀ q, t.reg q = s.reg q

/-- Every word of memory but the one at `a` is as before. -/
def MemoryKeptBut (a : Word) (s t : State) : Prop := ∀ x, x ≠ a → t.mem.read x = s.mem.read x

/-- Every word of memory is as before. -/
def MemoryKept (s t : State) : Prop := ∀ x, t.mem.read x = s.mem.read x

/-- The halted flag, the pending request and both ports are as before. -/
def PortsKept (s t : State) : Prop :=
  t.halted = s.halted ∧ t.wait = s.wait ∧ t.output = s.output ∧ t.input = s.input ∧ t.outputRoom = s.outputRoom

/-- `t` is `s` with the event `e` at the end of the OUTPUT history, the halted flag at `halted`, and one event less that the
host still accepts; the pending request and the INPUT port are as before. -/
def EmitsOnly (e : OutputEvent) (halted : Bool) (s t : State) : Prop :=
  t.output = s.output ++ [e] ∧ t.halted = halted ∧ t.outputRoom = s.outputRoom.map (· - 1) ∧
    t.wait = s.wait ∧ t.input = s.input

/-- What `setcc(a, v)` leaves, and nothing else (R26): `v` in register `a` and in `cc` exactly one of N, Z, P by `v`; every
other register, `pc`, every word of memory and both ports are as before. -/
def WritesResult (s t : State) (a : Reg) (v : Word) : Prop :=
  t.reg a = v ∧ RegsKeptBut a s t ∧
    t.cc = (if v = 0 then 0b010 else if v.getLsbD 15 = true then 0b100 else 0b001) ∧
    t.pc = s.pc ∧ MemoryKept s t ∧ PortsKept s t

/-- What a store of `v` at `a` leaves, and nothing else (R57). -/
def StoresWord (s t : State) (a v : Word) : Prop :=
  t.mem.read a = v ∧ MemoryKeptBut a s t ∧ RegsKept s t ∧ t.cc = s.cc ∧ t.pc = s.pc ∧ PortsKept s t

/-- What a control transfer to `target` leaves, and nothing else, but for the registers (R120 to R123). -/
def GoesTo (s t : State) (target : Word) : Prop :=
  t.pc = target ∧ t.cc = s.cc ∧ MemoryKept s t ∧ PortsKept s t

/-- A read of 0xFE02 in `s` ends the run with the fault `f`, after the OUTPUT history `out` (R55). -/
def InputFault (s : State) (f : Fault) (out : List OutputEvent) : Prop :=
  (∃ rest, s.input = .byte 0x03 :: rest ∧ f = .inputCancelled 0xFE02 out) ∨
    ∃ rest, s.input = .fail :: rest ∧ f = .ioFailure .input out

/-- Reading on from `a`, in `s`, a string gives the nonzero words `ws`, and leaves the state `t` (R155). The reads change
nothing but the host's answers, which they take (R55). -/
def StringRead (a : Word) (s : State) : List Word → State → Prop
  | [], t => t = s
  | w :: ws, t => ∃ u, memRead a s = .value w u ∧ w ≠ 0 ∧ StringRead (a + 1) u ws t

/-- The events of a string's words: the low byte of each (R155). -/
def charsOf (ws : List Word) : List OutputEvent := ws.map fun w => .char (w.setWidth 8)

/-- TRAP 0x22 raises `f` (R202): it has read and emitted the words `ws` of its string, from the address in R0 on, and either
the string passes 0xFE02 there and the host cancels or fails the read, or the host fails the next word's character. -/
def StringFault (s : State) (f : Fault) : Prop :=
  ∃ ws t, StringRead (s.reg .r0) s ws t ∧ (∀ n, s.outputRoom = some n → ws.length ≤ n) ∧
    ((s.reg .r0 + BitVec.ofNat 16 ws.length = 0xFE02 ∧ InputFault t f (s.output ++ charsOf ws)) ∨
      ∃ w u, memRead (s.reg .r0 + BitVec.ofNat 16 ws.length) t = .value w u ∧ w ≠ 0 ∧
        s.outputRoom = some ws.length ∧ f = .ioFailure .output (s.output ++ charsOf ws))

/-- Which faults an instruction may raise in `s` (R202), on which answer of the host, and with which OUTPUT history: the events
emitted before the fault (R204), without the event the host failed and without a Diagnostic (log entries 11, 12). -/
def FaultAllowed (i : Instr) (s : State) (f : Fault) : Prop :=
  match i with
  | .addReg _ _ _ => False
  | .addImm _ _ _ => False
  | .andReg _ _ _ => False
  | .andImm _ _ _ => False
  | .not _ _ => False
  | .br _ _ => False
  | .jmp _ => False
  | .jsr _ => False
  | .jsrr _ => False
  | .ld _ off => s.pc + sext off = 0xFE02 ∧ InputFault s f s.output
  | .ldi _ off => (s.pc + sext off = 0xFE02 ∨ memRead (s.pc + sext off) s = .value 0xFE02 s) ∧ InputFault s f s.output
  | .ldr _ b off => s.reg b + sext off = 0xFE02 ∧ InputFault s f s.output
  | .lea _ _ => False
  | .st _ _ => False
  | .sti _ off => s.pc + sext off = 0xFE02 ∧ InputFault s f s.output
  | .str _ _ _ => False
  | .rti x => f = .unsupportedInstruction (0x8000 ||| x.setWidth 16) s.output
  | .trap v =>
    (v = 0x21 ∧ s.outputRoom = some 0 ∧ f = .ioFailure .output s.output) ∨
    (v = 0x22 ∧ StringFault s f) ∨
    (v = 0x25 ∧ s.outputRoom = some 0 ∧ f = .ioFailure .output s.output)
  | .unknown _ => s.outputRoom = some 0 ∧ f = .ioFailure .output s.output

/-- The registers an instruction may write (R20, R21). -/
def destinations : Instr → List Reg
  | .addReg a _ _ => [a]
  | .addImm a _ _ => [a]
  | .andReg a _ _ => [a]
  | .andImm a _ _ => [a]
  | .not a _ => [a]
  | .br _ _ => []
  | .jmp _ => []
  | .jsr _ => [.r7]
  | .jsrr _ => [.r7]
  | .ld a _ => [a]
  | .ldi a _ => [a]
  | .ldr a _ _ => [a]
  | .lea a _ => [a]
  | .st _ _ => []
  | .sti _ _ => []
  | .str _ _ _ => []
  | .rti _ => []
  | .trap v => if v = 0x20 then [.r7, .r0] else [.r7]
  | .unknown _ => []

/-- The instructions that may write `cc`: the seven whose rules say so (R27), and TRAP 0x20 where `getc_sets_cc` is true
(R153). -/
def mayWriteCc : Instr → Bool
  | .addReg _ _ _ => true
  | .addImm _ _ _ => true
  | .andReg _ _ _ => true
  | .andImm _ _ _ => true
  | .not _ _ => true
  | .br _ _ => false
  | .jmp _ => false
  | .jsr _ => false
  | .jsrr _ => false
  | .ld _ _ => true
  | .ldi _ _ => true
  | .ldr _ _ _ => true
  | .lea _ _ => true
  | .st _ _ => false
  | .sti _ _ => false
  | .str _ _ _ => false
  | .rti _ => false
  | .trap v => v == 0x20 && Config.getcSetsCc
  | .unknown _ => false

/-- The instructions that may write `pc` beyond the fetch increment: BR, JMP, JSR, JSRR (R24). -/
def mayWritePc : Instr → Bool
  | .addReg _ _ _ => false
  | .addImm _ _ _ => false
  | .andReg _ _ _ => false
  | .andImm _ _ _ => false
  | .not _ _ => false
  | .br _ _ => true
  | .jmp _ => true
  | .jsr _ => true
  | .jsrr _ => true
  | .ld _ _ => false
  | .ldi _ _ => false
  | .ldr _ _ _ => false
  | .lea _ _ => false
  | .st _ _ => false
  | .sti _ _ => false
  | .str _ _ _ => false
  | .rti _ => false
  | .trap _ => false
  | .unknown _ => false

/-- The address an instruction writes to, where it writes to memory: ST, STI, STR alone (R63). STI's is the word its pointer
read gives, `s` being the state before that read. -/
def storeAddress (i : Instr) (s : State) : Option Word :=
  match i with
  | .addReg _ _ _ => none
  | .addImm _ _ _ => none
  | .andReg _ _ _ => none
  | .andImm _ _ _ => none
  | .not _ _ => none
  | .br _ _ => none
  | .jmp _ => none
  | .jsr _ => none
  | .jsrr _ => none
  | .ld _ _ => none
  | .ldi _ _ => none
  | .ldr _ _ _ => none
  | .lea _ _ => none
  | .st _ off => some (s.pc + sext off)
  | .sti _ off =>
    match memRead (s.pc + sext off) s with
    | .value p _ => some p
    | .waits => none
    | .stops _ => none
  | .str _ b off => some (s.reg b + sext off)
  | .rti _ => none
  | .trap _ => none
  | .unknown _ => none

/-- The bits of a word that its instruction reads or records: all but the ignored bits of R86. RTI and the unknown opcode
record their whole word (R200), so theirs count here. -/
def significantBits (ir : Word) : Word :=
  if opField ir = 0x1 ∨ opField ir = 0x5 then (if ir.getLsbD 5 = true then 0xFFFF else 0xFFE7)
  else if opField ir = 0x9 then 0xFFC0
  else if opField ir = 0xC then 0xF1C0
  else if opField ir = 0x4 then (if ir.getLsbD 11 = true then 0xFFFF else 0xF9C0)
  else if opField ir = 0xF then 0xF0FF
  else 0xFFFF

end Sys2Proof.Machine
end

