-- ==== Sys2Proof/Certificates/Slice0/Obligations.lean ====
section
/-! DEFINITION. The statements for the provers, in the order of the spec's files. Where a docstring names a decision D<n> or a
log entry, that clause is the spec's own choice or the model's, not a sentence of the source. -/

open Sys2Proof Sys2Proof.Machine

/-! Words, decoding and encoding. -/

/-- R11: the sign-extended field is the field with ones above its top bit where that bit is 1, else the field; read as a signed
number it is the field read as a signed number, for every width from 1 to 16. The zero-extended field is the field. -/
def Obligations.SignExtensionKeepsTheSignedValue : Prop :=
  ∀ (n : Nat) (f : BitVec n), 1 ≤ n → n ≤ 16 →
    (sext f).toInt = f.toInt ∧
    (f.getLsbD (n - 1) = true → sext f = f.setWidth 16 ||| (0xFFFF : Word) <<< n) ∧
    (f.getLsbD (n - 1) = false → sext f = f.setWidth 16) ∧
    (f.setWidth 16 : Word).toNat = f.toNat

/-- R83: every immediate lies in the range its field's width gives; with the operand types of R82 no instruction is
ill-formed. -/
def Obligations.EveryImmediateLiesInItsRange : Prop := ∀ i : Instr, i.wellFormed = true

/-- R82, R84, R85: no bit of an operand is lost between an instruction and its word (opcode numbers: decision D1). -/
def Obligations.DecodeEncodeGivesTheInstructionBack : Prop :=
  ∀ i : Instr, i.wellFormed = true → decode (encode i) = i

/-- R82, R86: an instruction keeps every bit of its word but the ignored ones (decision D12). -/
def Obligations.EncodeDecodeDropsOnlyIgnoredBits : Prop :=
  ∀ ir : Word, encode (decode ir) = ir &&& significantBits ir

/-- R86: two words that agree but for ignored bits are the same instruction (decision D12). -/
def Obligations.IgnoredBitsHaveNoEffect : Prop :=
  ∀ ir ir' : Word, ir &&& significantBits ir = ir' &&& significantBits ir' → decode ir = decode ir'

/-- Words the spec writes out (95_test_vectors.md) and the instructions they are (opcode numbers: decision D1). -/
def Obligations.WordsOfTheSpecDecode : Prop :=
  decode 0x12A1 = .addImm .r1 .r2 1 ∧ decode 0x129B = .addReg .r1 .r2 .r3 ∧ decode 0x58F0 = .andImm .r4 .r3 0b10000 ∧
  decode 0x947F = .not .r2 .r1 ∧ decode 0x0405 = .br 0b010 5 ∧ decode 0xC1C0 = .jmp .r7 ∧ decode 0x4810 = .jsr 16 ∧
  decode 0x40C0 = .jsrr .r3 ∧ decode 0xA403 = .ldi .r2 3 ∧ decode 0x66BF = .ldr .r3 .r2 0b111111 ∧
  decode 0xE002 = .lea .r0 2 ∧ decode 0xB5FD = .sti .r2 0b111111101 ∧ decode 0x7942 = .str .r4 .r5 2 ∧
  decode 0xF022 = .trap 0x22 ∧ decode 0xDFFF = .unknown 0xFFF

/-! The instruction cycle. -/

/-- R33, R90: where the word at `pc` is read without interception, a step of an engine that runs and waits for nothing is the
instruction that word decodes to, executed with `pc` already advanced. Where that instruction comes to wait for the host, only
its wait and its traffic on the ports show (log entry 8). -/
def Obligations.StepRunsTheDecodedInstruction : Prop :=
  ∀ (s : State) (i : Instr), s.Ready → Ordinary s.pc → decode (s.mem.read s.pc) = i → i.wellFormed = true →
    step s =
      match exec i { s with pc := s.pc + 1 } with
      | .next t =>
        if t.wait = none then .next t
        else .next { s with wait := t.wait, output := t.output, input := t.input, outputRoom := t.outputRoom }
      | .fault f => .fault f
      | .refused x => .refused x

/-- R54, R55, R68, R90: a fetch at 0xFE00 executes `kbsr_ready`; a fetch at 0xFE02 takes one answer of the host, and a byte
other than 0x03 is a no-op (decisions D6, D7, D13, D20; log entry 8: the wait, and `holdBack`, what an instruction shows). -/
def Obligations.FetchAtDeviceAddresses : Prop :=
  (∀ s : State, s.Ready → s.pc = 0xFE00 → step s =
    holdBack s (exec (decode Config.kbsrReady) { s with pc := 0xFE01 })) ∧
  (∀ (s : State) b rest, s.Ready → s.pc = 0xFE02 → s.input = .byte b :: rest → b ≠ 0x03 →
    step s = .next { s with pc := 0xFE03, input := rest }) ∧
  (∀ (s : State) rest, s.Ready → s.pc = 0xFE02 → s.input = .byte 0x03 :: rest →
    step s = .fault (.inputCancelled 0xFE02 s.output)) ∧
  (∀ (s : State) rest, s.Ready → s.pc = 0xFE02 → s.input = .fail :: rest →
    step s = .fault (.ioFailure .input s.output)) ∧
  (∀ s : State, s.Ready → s.pc = 0xFE02 → s.input = [] → step s = .next { s with wait := some .fetch })

/-- R29, R92, R215: a halted engine takes no step; the model says so by leaving the state as it is (log entry 9). -/
def Obligations.HaltedEngineStaysAsItIs : Prop :=
  ∀ s : State, s.halted = true → step s = .next s ∧ s.status = .halted

/-- R55, R91: an engine that waits stays where it is as long as the host has not answered (log entry 8). -/
def Obligations.UnansweredRequestBlocksTheEngine : Prop :=
  ∀ (s : State) (p : WaitPoint), s.halted = false → s.wait = some p → s.input = [] → step s = .next s

/-- R91: waiting is transparent. Where an instruction comes to wait for the host, its answer lets it end as it would have ended
had the answer been there from the start (log entry 8: the states that wait). -/
def Obligations.WaitingIsTransparent : Prop :=
  ∀ (s t : State) (x : InputAnswer), s.halted = false → step s = .next t → t.wait ≠ none →
    step (t.answer x) = step (s.answer x)

/-- R68: a store to the next instruction's address changes what is executed next (`holdBack`: log entry 8). -/
def Obligations.StoreToTheNextInstructionIsExecuted : Prop :=
  ∀ (s : State) (a : Reg), s.Ready → Ordinary s.pc → Ordinary (s.pc + 1) → decode (s.mem.read s.pc) = .st a 0 →
    ∃ t, step s = .next t ∧ t.mem.read (s.pc + 1) = s.reg a ∧ t.pc = s.pc + 1 ∧
      step t = holdBack t (exec (decode (s.reg a)) { t with pc := s.pc + 2 })

/-- The word `withFetchWord` places is the one the decoder reads and the next step runs (log entries 8, 27). -/
def Obligations.PlacedWordIsExecutedNext : Prop :=
  ∀ (s : State) (nbits w : Nat), nbits ≤ 16 → Ordinary s.pc →
    ∃ i, decodeTableWord nbits w = some i ∧
      step (s.withFetchWord nbits w) =
        holdBack (s.withFetchWord nbits w) (exec i { s.withFetchWord nbits w with pc := s.pc + 1 })

/-! Memory. -/

/-- R57: a write stores at every address, the two device addresses among them, and changes nothing else. -/
def Obligations.WritesStoreAtEveryAddress : Prop :=
  ∀ (s : State) (a v : Word), StoresWord s (s.store a v) a v

/-- R60, with R53: at an ordinary address a read gives the word last written there, whatever was written elsewhere in between;
at the two device addresses it does not. -/
def Obligations.ReadGivesTheLastWrite : Prop :=
  (∀ (s : State) (a v : Word) (later : List (Word × Word)), Ordinary a → (∀ w ∈ later, w.1 ≠ a) →
    let u := later.foldl (fun s w => s.store w.1 w.2) (s.store a v)
    memRead a u = .value v u) ∧
  (∀ s : State, memRead 0xFE00 (s.store 0xFE00 0) ≠ .value 0 (s.store 0xFE00 0)) ∧
  (∀ (s : State) (v : Word), memRead 0xFE02 (s.store 0xFE02 v) ≠ .value v (s.store 0xFE02 v))

/-- R53: an ordinary read gives the stored word and changes nothing. -/
def Obligations.OrdinaryReadGivesTheStoredWord : Prop :=
  ∀ (s : State) (a : Word), a ≠ 0xFE00 → a ≠ 0xFE02 → memRead a s = .value (s.mem.read a) s

/-- R54: a read of 0xFE00 gives one constant with its top bit set, whatever is stored there, and changes nothing. -/
def Obligations.StatusReadIsAlwaysReady : Prop :=
  ∃ ready : Word, ready.getLsbD 15 = true ∧ ∀ s : State, memRead 0xFE00 s = .value ready s

/-- R55, R56: a read of 0xFE02 takes exactly one answer of the host (decisions D7, D20, D21; log entries 6, 8, 23, 36). -/
def Obligations.DataReadTakesOneAnswer : Prop :=
  (∀ (s : State) b rest, s.input = .byte b :: rest → b ≠ 0x03 →
    memRead 0xFE02 s = .value ((if b = 0x0D then (0x0A : Byte) else b).setWidth 16) { s with input := rest }) ∧
  (∀ (s : State) rest, s.input = .byte 0x03 :: rest → memRead 0xFE02 s = .stops (.inputCancelled 0xFE02 s.output)) ∧
  (∀ (s : State) rest, s.input = .fail :: rest → memRead 0xFE02 s = .stops (.ioFailure .input s.output)) ∧
  (∀ s : State, s.input = [] → memRead 0xFE02 s = .waits)

/-- The canonical form of log entry 13: memories that read alike at every address are the same data. -/
def Obligations.MemoriesThatReadAlikeAreEqual : Prop :=
  ∀ m m' : Memory, m.wf = true → m'.wf = true → (∀ a, m.read a = m'.read a) → m = m'

/-! Operate instructions. -/

/-- R110 (decisions D1, its opcode number, and D2, the positions of N, Z, P). -/
def Obligations.AddWritesTheSum : Prop :=
  (∀ (a b c : Reg) (s : State), ∃ t, exec (.addReg a b c) s = .next t ∧ WritesResult s t a (s.reg b + s.reg c)) ∧
  (∀ (a b : Reg) (imm : BitVec 5) (s : State),
    ∃ t, exec (.addImm a b imm) s = .next t ∧ WritesResult s t a (s.reg b + sext imm)) ∧
  (∀ ir : Word, ir.extractLsb' 12 4 = 0x1 →
    (ir.getLsbD 5 = false → decode ir = .addReg (regOfBits (ir.extractLsb' 9 3)) (regOfBits (ir.extractLsb' 6 3))
      (regOfBits (ir.extractLsb' 0 3))) ∧
    (ir.getLsbD 5 = true → decode ir = .addImm (regOfBits (ir.extractLsb' 9 3)) (regOfBits (ir.extractLsb' 6 3))
      (ir.extractLsb' 0 5)))

/-- R111 (decisions D1, its opcode number, and D2, the positions of N, Z, P). -/
def Obligations.AndWritesTheConjunction : Prop :=
  (∀ (a b c : Reg) (s : State), ∃ t, exec (.andReg a b c) s = .next t ∧ WritesResult s t a (s.reg b &&& s.reg c)) ∧
  (∀ (a b : Reg) (imm : BitVec 5) (s : State),
    ∃ t, exec (.andImm a b imm) s = .next t ∧ WritesResult s t a (s.reg b &&& sext imm)) ∧
  (∀ ir : Word, ir.extractLsb' 12 4 = 0x5 →
    (ir.getLsbD 5 = false → decode ir = .andReg (regOfBits (ir.extractLsb' 9 3)) (regOfBits (ir.extractLsb' 6 3))
      (regOfBits (ir.extractLsb' 0 3))) ∧
    (ir.getLsbD 5 = true → decode ir = .andImm (regOfBits (ir.extractLsb' 9 3)) (regOfBits (ir.extractLsb' 6 3))
      (ir.extractLsb' 0 5)))

/-- R112 (decisions D12, the low six bits are ignored, D1 and D2). -/
def Obligations.NotWritesTheComplement : Prop :=
  (∀ (a b : Reg) (s : State), ∃ t, exec (.not a b) s = .next t ∧ WritesResult s t a (~~~ s.reg b)) ∧
  (∀ ir : Word, ir.extractLsb' 12 4 = 0x9 →
    decode ir = .not (regOfBits (ir.extractLsb' 9 3)) (regOfBits (ir.extractLsb' 6 3)))

/-- R26: `setcc` stores the value; Z iff it is 0, N iff its bit 15 is 1, P iff neither; exactly one bit is set
(the positions of N, Z, P are decision D2). -/
def Obligations.SetccLeavesExactlyOneFlag : Prop :=
  ∀ (s : State) (r : Reg) (v : Word),
    (s.setcc r v).reg r = v ∧ RegsKeptBut r s (s.setcc r v) ∧
    ((s.setcc r v).cc.getLsbD 1 = true ↔ v = 0) ∧
    ((s.setcc r v).cc.getLsbD 2 = true ↔ v.getLsbD 15 = true) ∧
    ((s.setcc r v).cc.getLsbD 0 = true ↔ v ≠ 0 ∧ v.getLsbD 15 = false) ∧
    ExactlyOneFlag (s.setcc r v).cc

/-! Control transfer. -/

/-- R120 (decisions D1, D2, and D10: the target wraps). -/
def Obligations.BrBranchesOnTheMask : Prop :=
  (∀ (nzp : BitVec 3) (off : BitVec 9) (s : State), ∃ t, exec (.br nzp off) s = .next t ∧ RegsKept s t ∧
    GoesTo s t (if s.cc &&& nzp = 0 then s.pc else s.pc + sext off)) ∧
  (∀ ir : Word, ir.extractLsb' 12 4 = 0x0 → decode ir = .br (ir.extractLsb' 9 3) (ir.extractLsb' 0 9))

/-- R121 (decision D1, its opcode number). -/
def Obligations.JmpGoesToTheRegister : Prop :=
  (∀ (b : Reg) (s : State), ∃ t, exec (.jmp b) s = .next t ∧ RegsKept s t ∧ GoesTo s t (s.reg b)) ∧
  (∀ ir : Word, ir.extractLsb' 12 4 = 0xC → decode ir = .jmp (regOfBits (ir.extractLsb' 6 3)))

/-- R122 (decisions D1, its opcode number, and D10: the target wraps). -/
def Obligations.JsrLinksAndBranches : Prop :=
  (∀ (off : BitVec 11) (s : State), ∃ t, exec (.jsr off) s = .next t ∧ t.reg .r7 = s.pc ∧ RegsKeptBut .r7 s t ∧
    GoesTo s t (s.pc + sext off)) ∧
  (∀ ir : Word, ir.extractLsb' 12 4 = 0x4 → ir.getLsbD 11 = true → decode ir = .jsr (ir.extractLsb' 0 11))

/-- R123 (decisions D1, its opcode number, and D11: the base is read after the link is written, so `JSRR R7` goes on at the next
instruction). -/
def Obligations.JsrrLinksThenReadsItsBase : Prop :=
  (∀ (b : Reg) (s : State), ∃ t, exec (.jsrr b) s = .next t ∧ t.reg .r7 = s.pc ∧ RegsKeptBut .r7 s t ∧
    GoesTo s t (if b = .r7 then s.pc else s.reg b)) ∧
  (∀ ir : Word, ir.extractLsb' 12 4 = 0x4 → ir.getLsbD 11 = false → decode ir = .jsrr (regOfBits (ir.extractLsb' 6 3)))

/-! Loads. -/

/-- R130, R56, every kind of address (decisions D1, D2, D6, D7, D10, D20, D21). Where the host has not answered,
the instruction comes to wait, as log entry 8 says. -/
def Obligations.LdLoadsPcRelative : Prop :=
  (∀ (a : Reg) (off : BitVec 9) (s : State), Ordinary (s.pc + sext off) →
    ∃ t, exec (.ld a off) s = .next t ∧ WritesResult s t a (s.mem.read (s.pc + sext off))) ∧
  (∀ (a : Reg) (off : BitVec 9) (s : State), s.pc + sext off = 0xFE00 →
    ∃ t, exec (.ld a off) s = .next t ∧ WritesResult s t a Config.kbsrReady) ∧
  (∀ (a : Reg) (off : BitVec 9) (s : State) b rest, s.pc + sext off = 0xFE02 → s.input = .byte b :: rest → b ≠ 0x03 →
    ∃ t, exec (.ld a off) s = .next t ∧
      WritesResult { s with input := rest } t a ((if b = 0x0D then (0x0A : Byte) else b).setWidth 16)) ∧
  (∀ (a : Reg) (off : BitVec 9) (s : State) rest, s.pc + sext off = 0xFE02 → s.input = .byte 0x03 :: rest →
    exec (.ld a off) s = .fault (.inputCancelled 0xFE02 s.output)) ∧
  (∀ (a : Reg) (off : BitVec 9) (s : State) rest, s.pc + sext off = 0xFE02 → s.input = .fail :: rest →
    exec (.ld a off) s = .fault (.ioFailure .input s.output)) ∧
  (∀ (a : Reg) (off : BitVec 9) (s : State), s.pc + sext off = 0xFE02 → s.input = [] →
    exec (.ld a off) s = .next { s with wait := some (.load a) }) ∧
  (∀ ir : Word, ir.extractLsb' 12 4 = 0x2 → decode ir = .ld (regOfBits (ir.extractLsb' 9 3)) (ir.extractLsb' 0 9))

/-- R131, R56, every kind of address and of pointer (decisions D1, D2, D6, D7, D10, D13, D20, D21). Where the host has not
answered, the instruction comes to wait, as log entry 8 says. A pointer read at 0xFE00 is `kbsr_ready`, an open parameter (log
entry 3), so each kind of address it may be is given. -/
def Obligations.LdiLoadsThroughThePointer : Prop :=
  (∀ (a : Reg) (off : BitVec 9) (s : State), Ordinary (s.pc + sext off) → Ordinary (s.mem.read (s.pc + sext off)) →
    ∃ t, exec (.ldi a off) s = .next t ∧ WritesResult s t a (s.mem.read (s.mem.read (s.pc + sext off)))) ∧
  (∀ (a : Reg) (off : BitVec 9) (s : State), Ordinary (s.pc + sext off) → s.mem.read (s.pc + sext off) = 0xFE00 →
    ∃ t, exec (.ldi a off) s = .next t ∧ WritesResult s t a Config.kbsrReady) ∧
  (∀ (a : Reg) (off : BitVec 9) (s : State) b rest, Ordinary (s.pc + sext off) → s.mem.read (s.pc + sext off) = 0xFE02 →
    s.input = .byte b :: rest → b ≠ 0x03 → ∃ t, exec (.ldi a off) s = .next t ∧
      WritesResult { s with input := rest } t a ((if b = 0x0D then (0x0A : Byte) else b).setWidth 16)) ∧
  (∀ (a : Reg) (off : BitVec 9) (s : State) rest, Ordinary (s.pc + sext off) → s.mem.read (s.pc + sext off) = 0xFE02 →
    s.input = .byte 0x03 :: rest → exec (.ldi a off) s = .fault (.inputCancelled 0xFE02 s.output)) ∧
  (∀ (a : Reg) (off : BitVec 9) (s : State) rest, Ordinary (s.pc + sext off) → s.mem.read (s.pc + sext off) = 0xFE02 →
    s.input = .fail :: rest → exec (.ldi a off) s = .fault (.ioFailure .input s.output)) ∧
  (∀ (a : Reg) (off : BitVec 9) (s : State), Ordinary (s.pc + sext off) → s.mem.read (s.pc + sext off) = 0xFE02 →
    s.input = [] → exec (.ldi a off) s = .next { s with wait := some (.load a) }) ∧
  (∀ (a : Reg) (off : BitVec 9) (s : State), s.pc + sext off = 0xFE00 →
    if Config.kbsrReady = 0xFE00 then ∃ t, exec (.ldi a off) s = .next t ∧ WritesResult s t a Config.kbsrReady
    else if Config.kbsrReady = 0xFE02 then
      match s.input with
      | .byte b :: rest =>
        if b = 0x03 then exec (.ldi a off) s = .fault (.inputCancelled 0xFE02 s.output)
        else ∃ t, exec (.ldi a off) s = .next t ∧
          WritesResult { s with input := rest } t a ((if b = 0x0D then (0x0A : Byte) else b).setWidth 16)
      | .fail :: _ => exec (.ldi a off) s = .fault (.ioFailure .input s.output)
      | [] => exec (.ldi a off) s = .next { s with wait := some (.load a) }
    else ∃ t, exec (.ldi a off) s = .next t ∧ WritesResult s t a (s.mem.read Config.kbsrReady)) ∧
  (∀ (a : Reg) (off : BitVec 9) (s : State) b rest, s.pc + sext off = 0xFE02 → s.input = .byte b :: rest → b ≠ 0x03 →
    ∃ t, exec (.ldi a off) s = .next t ∧ WritesResult { s with input := rest } t a
      (s.mem.read ((if b = 0x0D then (0x0A : Byte) else b).setWidth 16))) ∧
  (∀ (a : Reg) (off : BitVec 9) (s : State) rest, s.pc + sext off = 0xFE02 → s.input = .byte 0x03 :: rest →
    exec (.ldi a off) s = .fault (.inputCancelled 0xFE02 s.output)) ∧
  (∀ (a : Reg) (off : BitVec 9) (s : State) rest, s.pc + sext off = 0xFE02 → s.input = .fail :: rest →
    exec (.ldi a off) s = .fault (.ioFailure .input s.output)) ∧
  (∀ (a : Reg) (off : BitVec 9) (s : State), s.pc + sext off = 0xFE02 → s.input = [] →
    exec (.ldi a off) s = .next { s with wait := some (.loadPointer a) }) ∧
  (∀ ir : Word, ir.extractLsb' 12 4 = 0xA → decode ir = .ldi (regOfBits (ir.extractLsb' 9 3)) (ir.extractLsb' 0 9))

/-- R132, R56, every kind of address (decisions D1, D2, D6, D7, D10, D20, D21). Where the host has not answered,
the instruction comes to wait, as log entry 8 says. -/
def Obligations.LdrLoadsBaseRelative : Prop :=
  (∀ (a b : Reg) (off : BitVec 6) (s : State), Ordinary (s.reg b + sext off) →
    ∃ t, exec (.ldr a b off) s = .next t ∧ WritesResult s t a (s.mem.read (s.reg b + sext off))) ∧
  (∀ (a b : Reg) (off : BitVec 6) (s : State), s.reg b + sext off = 0xFE00 →
    ∃ t, exec (.ldr a b off) s = .next t ∧ WritesResult s t a Config.kbsrReady) ∧
  (∀ (a b : Reg) (off : BitVec 6) (s : State) x rest, s.reg b + sext off = 0xFE02 → s.input = .byte x :: rest → x ≠ 0x03 →
    ∃ t, exec (.ldr a b off) s = .next t ∧
      WritesResult { s with input := rest } t a ((if x = 0x0D then (0x0A : Byte) else x).setWidth 16)) ∧
  (∀ (a b : Reg) (off : BitVec 6) (s : State) rest, s.reg b + sext off = 0xFE02 → s.input = .byte 0x03 :: rest →
    exec (.ldr a b off) s = .fault (.inputCancelled 0xFE02 s.output)) ∧
  (∀ (a b : Reg) (off : BitVec 6) (s : State) rest, s.reg b + sext off = 0xFE02 → s.input = .fail :: rest →
    exec (.ldr a b off) s = .fault (.ioFailure .input s.output)) ∧
  (∀ (a b : Reg) (off : BitVec 6) (s : State), s.reg b + sext off = 0xFE02 → s.input = [] →
    exec (.ldr a b off) s = .next { s with wait := some (.load a) }) ∧
  (∀ ir : Word, ir.extractLsb' 12 4 = 0x6 →
    decode ir = .ldr (regOfBits (ir.extractLsb' 9 3)) (regOfBits (ir.extractLsb' 6 3)) (ir.extractLsb' 0 6))

/-- R133 (decisions D2, and D10: the address wraps); no memory access, so no address is special. -/
def Obligations.LeaWritesTheAddress : Prop :=
  (∀ (a : Reg) (off : BitVec 9) (s : State), ∃ t, exec (.lea a off) s = .next t ∧ WritesResult s t a (s.pc + sext off)) ∧
  (∀ ir : Word, ir.extractLsb' 12 4 = 0xE → decode ir = .lea (regOfBits (ir.extractLsb' 9 3)) (ir.extractLsb' 0 9))

/-! Stores. -/

/-- R140 (decisions D1, its opcode number, and D10: the address wraps). -/
def Obligations.StStoresPcRelative : Prop :=
  (∀ (a : Reg) (off : BitVec 9) (s : State),
    ∃ t, exec (.st a off) s = .next t ∧ StoresWord s t (s.pc + sext off) (s.reg a)) ∧
  (∀ ir : Word, ir.extractLsb' 12 4 = 0x3 → decode ir = .st (regOfBits (ir.extractLsb' 9 3)) (ir.extractLsb' 0 9))

/-- R141, R56, every kind of address (decisions D1, D6, D7, D10, D13, D20, D21). Where the host has not answered, the instruction
comes to wait, as log entry 8 says. -/
def Obligations.StiStoresThroughThePointer : Prop :=
  (∀ (a : Reg) (off : BitVec 9) (s : State), Ordinary (s.pc + sext off) →
    ∃ t, exec (.sti a off) s = .next t ∧ StoresWord s t (s.mem.read (s.pc + sext off)) (s.reg a)) ∧
  (∀ (a : Reg) (off : BitVec 9) (s : State), s.pc + sext off = 0xFE00 →
    ∃ t, exec (.sti a off) s = .next t ∧ StoresWord s t Config.kbsrReady (s.reg a)) ∧
  (∀ (a : Reg) (off : BitVec 9) (s : State) b rest, s.pc + sext off = 0xFE02 → s.input = .byte b :: rest → b ≠ 0x03 →
    ∃ t, exec (.sti a off) s = .next t ∧ StoresWord { s with input := rest } t
      ((if b = 0x0D then (0x0A : Byte) else b).setWidth 16) (s.reg a)) ∧
  (∀ (a : Reg) (off : BitVec 9) (s : State) rest, s.pc + sext off = 0xFE02 → s.input = .byte 0x03 :: rest →
    exec (.sti a off) s = .fault (.inputCancelled 0xFE02 s.output)) ∧
  (∀ (a : Reg) (off : BitVec 9) (s : State) rest, s.pc + sext off = 0xFE02 → s.input = .fail :: rest →
    exec (.sti a off) s = .fault (.ioFailure .input s.output)) ∧
  (∀ (a : Reg) (off : BitVec 9) (s : State), s.pc + sext off = 0xFE02 → s.input = [] →
    exec (.sti a off) s = .next { s with wait := some (.storePointer a) }) ∧
  (∀ ir : Word, ir.extractLsb' 12 4 = 0xB → decode ir = .sti (regOfBits (ir.extractLsb' 9 3)) (ir.extractLsb' 0 9))

/-- R142 (decisions D1, its opcode number, and D10: the address wraps). -/
def Obligations.StrStoresBaseRelative : Prop :=
  (∀ (a b : Reg) (off : BitVec 6) (s : State),
    ∃ t, exec (.str a b off) s = .next t ∧ StoresWord s t (s.reg b + sext off) (s.reg a)) ∧
  (∀ ir : Word, ir.extractLsb' 12 4 = 0x7 →
    decode ir = .str (regOfBits (ir.extractLsb' 9 3)) (regOfBits (ir.extractLsb' 6 3)) (ir.extractLsb' 0 6))

/-! System instructions. -/

/-- R150, with R200's record: RTI stops on every path, whatever its ignored bits, and records its word
(decisions D1, D12, D17, D26; log entries 10, 11). -/
def Obligations.RtiAborts : Prop :=
  (∀ (x : BitVec 12) (s : State), exec (.rti x) s = .fault (.unsupportedInstruction (0x8000 ||| x.setWidth 16) s.output)) ∧
  (∀ (ir : Word) (s : State), ir.extractLsb' 12 4 = 0x8 →
    exec (decode ir) s = .fault (.unsupportedInstruction ir s.output))

/-- R151, R152, R207: whatever its vector, a TRAP that goes on has left the current PC in R7 and in `pc`; only TRAP 0x20 writes
another register, R0; no word of memory changes (decision D27: TRAP reads no vector table). Where it waits, a step shows none of
this before it ends (log entry 8). -/
def Obligations.TrapLinksAndStaysInLine : Prop :=
  (∀ (v : BitVec 8) (s t : State), exec (.trap v) s = .next t →
    t.reg .r7 = s.pc ∧ t.pc = s.pc ∧ (∀ q, q ≠ .r7 → (q = .r0 → v ≠ 0x20) → t.reg q = s.reg q) ∧ MemoryKept s t) ∧
  (∀ ir : Word, ir.extractLsb' 12 4 = 0xF → decode ir = .trap (ir.extractLsb' 0 8))

/-- R153: the placeholder and the effect on `cc` are the open parameters `getc_char` and `getc_sets_cc` (decisions D2, D8,
D9). -/
def Obligations.GetcWritesThePlaceholder : Prop :=
  ∀ s : State, ∃ t, exec (.trap 0x20) s = .next t ∧ t.reg .r0 = Config.getcChar ∧ t.reg .r7 = s.pc ∧
    (∀ q, q ≠ .r0 → q ≠ .r7 → t.reg q = s.reg q) ∧
    t.cc = (if Config.getcSetsCc = false then s.cc else if Config.getcChar = 0 then 0b010
      else if Config.getcChar.getLsbD 15 = true then 0b100 else 0b001) ∧
    t.pc = s.pc ∧ MemoryKept s t ∧ PortsKept s t

/-- R154, R205 (decisions D20, D29; log entries 7, 12). -/
def Obligations.OutEmitsTheLowByte : Prop :=
  (∀ s : State, s.HostAccepts → ∃ t, exec (.trap 0x21) s = .next t ∧
    EmitsOnly (.char ((s.reg .r0).setWidth 8)) s.halted s t ∧
    t.reg .r7 = s.pc ∧ RegsKeptBut .r7 s t ∧ t.cc = s.cc ∧ t.pc = s.pc ∧ MemoryKept s t) ∧
  (∀ s : State, s.outputRoom = some 0 → exec (.trap 0x21) s = .fault (.ioFailure .output s.output))

/-- R155: TRAP 0x22 is the loop the rule writes, for every address and every answer of the host; it has no bound (decisions D13,
D18; log entry 22). Where the host has not answered, the instruction comes to wait with R7 written and its characters emitted;
a step shows the characters and not R7 (log entry 8). -/
def Obligations.PutsIsTheLoopOfItsRule : Prop :=
  (∀ s : State, exec (.trap 0x22) s = printFrom (s.reg .r0) { s with regs := s.regs.set .r7 s.pc }) ∧
  (∀ (a : Word) (s : State), printFrom a s =
    match memRead a s with
    | .value w s' => if w = 0 then .next s' else outputThen (.char (w.setWidth 8)) s' (printFrom (a + 1))
    | .waits => .next { s with wait := some .string }
    | .stops f => .fault f)

/-- R155: a string of nonzero words at ordinary addresses, a zero word after it, is emitted whole, character by character
(decision D18: the addresses wrap). -/
def Obligations.PutsEmitsTheString : Prop :=
  ∀ (s : State) (ws : List Word), (∀ n, s.outputRoom = some n → ws.length ≤ n) → (∀ w ∈ ws, w ≠ 0) →
    (∀ k ≤ ws.length, Ordinary (s.reg .r0 + BitVec.ofNat 16 k)) →
    (∀ k (h : k < ws.length), s.mem.read (s.reg .r0 + BitVec.ofNat 16 k) = ws[k]) →
    s.mem.read (s.reg .r0 + BitVec.ofNat 16 ws.length) = 0 →
    ∃ t, exec (.trap 0x22) s = .next t ∧ t.output = s.output ++ ws.map (fun w => .char (w.setWidth 8)) ∧
      t.reg .r7 = s.pc ∧ RegsKeptBut .r7 s t ∧ t.cc = s.cc ∧ t.pc = s.pc ∧ MemoryKept s t ∧
      t.halted = s.halted ∧ t.wait = s.wait ∧ t.input = s.input ∧ t.outputRoom = s.outputRoom.map (· - ws.length)

/-- R156, R205 (decisions D19, D20; log entries 7, 12). -/
def Obligations.HaltEmitsTheNoticeAndHalts : Prop :=
  (∀ s : State, s.HostAccepts → ∃ t, exec (.trap 0x25) s = .next t ∧ EmitsOnly .haltNotice true s t ∧
    t.reg .r7 = s.pc ∧ RegsKeptBut .r7 s t ∧ t.cc = s.cc ∧ t.pc = s.pc ∧ MemoryKept s t) ∧
  (∀ s : State, s.outputRoom = some 0 → exec (.trap 0x25) s = .fault (.ioFailure .output s.output))

/-- R157 (decision D14, `90_conflicts.md` C3): any other vector does nothing beyond the write of R7. -/
def Obligations.OtherVectorsOnlyLink : Prop :=
  ∀ (v : BitVec 8) (s : State), v ≠ 0x20 → v ≠ 0x21 → v ≠ 0x22 → v ≠ 0x25 →
    ∃ t, exec (.trap v) s = .next t ∧ t.reg .r7 = s.pc ∧ RegsKeptBut .r7 s t ∧ t.cc = s.cc ∧ t.pc = s.pc ∧
      MemoryKept s t ∧ PortsKept s t

/-- R158, R205 (decisions D1, D20, D25; log entry 7: how often the host accepts, log entry 12: a failed event is not in the
history). -/
def Obligations.UnknownOpcodeHaltsCleanly : Prop :=
  (∀ (x : BitVec 12) (s : State), s.HostAccepts → ∃ t, exec (.unknown x) s = .next t ∧
    EmitsOnly (.diagnostic (.unknownOpcode (0xD000 ||| x.setWidth 16))) true s t ∧
    RegsKept s t ∧ t.cc = s.cc ∧ t.pc = s.pc ∧ MemoryKept s t) ∧
  (∀ (x : BitVec 12) (s : State), s.outputRoom = some 0 → exec (.unknown x) s = .fault (.ioFailure .output s.output)) ∧
  (∀ ir : Word, ir.extractLsb' 12 4 = 0xD →
    ∃ x : BitVec 12, decode ir = .unknown x ∧ 0xD000 ||| x.setWidth 16 = ir)

/-! What holds of every instruction. -/

/-- R202: no instruction raises a condition the table does not give it; InputCancelled and an input IOFailure only from a read of
0xFE02 (for TRAP 0x22: where its string passes 0xFE02, no zero word standing before it) that the host answers so. Each is raised
with the events emitted before it (R204), without the event the host failed (log entry 12), without a Diagnostic (log entry
11). -/
def Obligations.FaultsAreThoseOfTheTable : Prop :=
  ∀ (i : Instr) (s : State) (f : Fault), exec i s = .fault f → FaultAllowed i s f

/-- R27, R153: `cc` is written by the seven instructions the rule lists, and by TRAP 0x20 only where `getc_sets_cc` is true. -/
def Obligations.OnlyTheListedInstructionsWriteCc : Prop :=
  ∀ (i : Instr) (s t : State), exec i s = .next t → mayWriteCc i = false → t.cc = s.cc

/-- R20, R21: an instruction writes no register but its destination, the link register of JSR, JSRR and TRAP, and R0 of TRAP
0x20. -/
def Obligations.OnlyDestinationsAreWritten : Prop :=
  ∀ (i : Instr) (s t : State) (q : Reg), exec i s = .next t → q ∉ destinations i → t.reg q = s.reg q

/-- R24: beyond the fetch increment, only BR, JMP, JSR and JSRR write `pc`. -/
def Obligations.OnlyTransfersWritePc : Prop :=
  ∀ (i : Instr) (s t : State), exec i s = .next t → mayWritePc i = false → t.pc = s.pc

/-- R63: only ST, STI and STR write to memory, each at most the one word at its address. -/
def Obligations.OnlyStoresWriteMemory : Prop :=
  ∀ (i : Instr) (s t : State), exec i s = .next t →
    (storeAddress i s = none → MemoryKept s t) ∧ ∀ a, storeAddress i s = some a → MemoryKeptBut a s t

/-- R29: only TRAP 0x25 and the unknown opcode set the halted flag, and nothing clears it. -/
def Obligations.OnlyHaltAndUnknownOpcodeHalt : Prop :=
  ∀ (i : Instr) (s t : State), exec i s = .next t →
    (t.halted = true ↔ s.halted = true ∨ i = .trap 0x25 ∨ ∃ x, i = .unknown x)

/-- R85: every word decodes and executes; no step is refused. -/
def Obligations.NoStepIsRefused : Prop := ∀ (s : State) (r : Refusal), step s ≠ .refused r

/-- R33, R201, R204: the OUTPUT history only grows, through a fault too. -/
def Obligations.OutputHistoryOnlyGrows : Prop :=
  (∀ s t : State, step s = .next t → s.output <+: t.output) ∧
  (∀ (s : State) (f : Fault), step s = .fault f → s.output <+: faultOutput f)

/-- R55, R64: a step takes the host's answers in their order and leaves the rest. -/
def Obligations.InputIsTakenInOrder : Prop :=
  ∀ s t : State, step s = .next t → t.input <:+ s.input

/-- The invariant of the model: canonical memory, no wait once halted, a wait in a fetch only at 0xFE02. Every step keeps it. -/
def Obligations.StepKeepsTheInvariant : Prop :=
  ∀ s t : State, s.Inv → step s = .next t → t.Inv

/-- The invariant holds right after reset. -/
def Obligations.ResetHasTheInvariant : Prop := State.reset.Inv

/-- R26, R28, `90_conflicts.md` C7: once exactly one of N, Z, P is set, every step keeps it so. -/
def Obligations.StepKeepsExactlyOneFlag : Prop :=
  ∀ s t : State, ExactlyOneFlag s.cc → step s = .next t → ExactlyOneFlag t.cc

/-! Reset and boot. -/

/-- R231: a new engine, whatever its registers and its `cc` hold; the machine after reset is one, at the open parameters of
R8. -/
def Obligations.ResetIsANewEngine : Prop :=
  (∀ (regInit : Reg → Word) (ccInit : BitVec 3),
    (∀ r, (State.construct regInit ccInit).reg r = regInit r) ∧ (State.construct regInit ccInit).pc = 0x3000 ∧
    (State.construct regInit ccInit).cc = ccInit ∧ (State.construct regInit ccInit).status = .running ∧
    (∀ a, (State.construct regInit ccInit).mem.read a = 0) ∧ (State.construct regInit ccInit).wait = none ∧
    (State.construct regInit ccInit).output = []) ∧
  ∃ regInit ccInit, State.reset = State.construct regInit ccInit

/-- R58: `load` copies its words and nothing else; words that pass the end of memory are a LoadFailure (decisions D22, D23). -/
def Obligations.LoadCopiesItsWords : Prop :=
  (∀ (s : State) (start : Word) (words : List Word), start.toNat + words.length ≤ 0x10000 →
    ∃ t, s.load start words = .ok t ∧
      (∀ k (h : k < words.length), t.mem.read (start + BitVec.ofNat 16 k) = words[k]) ∧
      (∀ x, (∀ k < words.length, x ≠ start + BitVec.ofNat 16 k) → t.mem.read x = s.mem.read x) ∧
      t = { s with mem := t.mem }) ∧
  (∀ (s : State) (start : Word) (words : List Word), 0x10000 < start.toNat + words.length →
    s.load start words = .error .loadFailure)

/-- R233, R234: an image is a big-endian load address and a body of big-endian words, which go to memory from that address on,
and nothing else changes, `pc` among it; a malformed image is a LoadFailure (decisions D22, D23). -/
def Obligations.ImageIsLoadedBigEndian : Prop :=
  (∀ (s : State) (hi lo : Byte) (body : List (Byte × Byte)),
    hi.toNat * 256 + lo.toNat + body.length ≤ 0x10000 →
    ∃ t, s.loadImage (hi :: lo :: body.flatMap (fun w => [w.1, w.2])) = .ok t ∧
      (∀ k (h : k < body.length), (t.mem.read (BitVec.ofNat 16 (hi.toNat * 256 + lo.toNat + k))).toNat =
        body[k].1.toNat * 256 + body[k].2.toNat) ∧
      (∀ x, (∀ k < body.length, x ≠ BitVec.ofNat 16 (hi.toNat * 256 + lo.toNat + k)) → t.mem.read x = s.mem.read x) ∧
      t = { s with mem := t.mem }) ∧
  (∀ (s : State) (image : List Byte), image.length < 2 ∨ image.length % 2 = 1 →
    s.loadImage image = .error .loadFailure) ∧
  (∀ (s : State) (hi lo : Byte) (body : List (Byte × Byte)),
    0x10000 < hi.toNat * 256 + lo.toNat + body.length →
    s.loadImage (hi :: lo :: body.flatMap (fun w => [w.1, w.2])) = .error .loadFailure)

/-! An engine that waits. -/

/-- R33: while an INPUT request is pending, no change of a register, `pc`, `cc` or memory of the blocked instruction is visible;
what a step shows of it is its wait, the answers it has taken and the events it has emitted (log entry 8). -/
def Obligations.BlockedInstructionShowsNothing : Prop :=
  (∀ s t : State, step s = .next t → t.wait ≠ none →
    t.regs = s.regs ∧ t.pc = s.pc ∧ t.cc = s.cc ∧ t.mem = s.mem ∧ t.halted = s.halted) ∧
  (∀ (s t : State) (p : WaitPoint), t.wait = some p → holdBack s (.next t) =
    .next { s with wait := some p, output := t.output, input := t.input, outputRoom := t.outputRoom }) ∧
  (∀ s t : State, t.wait = none → holdBack s (.next t) = .next t) ∧
  (∀ (s : State) (f : Fault), holdBack s (.fault f) = .fault f)
end

