-- ==== Sys2Proof/Laws/Encode.lean ====
section
/-! SUPPORT. Fields of a word put together by `place`: what is read back from them. -/

namespace Sys2Proof

@[simp] theorem regOfBits_regBits (r : Reg) : regOfBits (regBits r) = r := by cases r <;> rfl

@[simp] theorem regBits_regOfBits (f : BitVec 3) : regBits (regOfBits f) = f := by
  revert f; decide

theorem getLsbD_place {n : Nat} (f : BitVec n) (pos i : Nat) :
    (place f pos).getLsbD i = (decide (i < 16) && (decide (pos ≤ i) && f.getLsbD (i - pos))) := by
  simp only [place, BitVec.getLsbD_shiftLeft, BitVec.getLsbD_setWidth]
  by_cases h1 : i < 16 <;> by_cases h2 : i < pos <;> simp [h1, h2, Nat.not_le.mpr, Nat.le_of_not_lt]; omega

theorem getElem_place {n : Nat} (f : BitVec n) (pos i : Nat) (h : i < 16) :
    (place f pos)[i] = (decide (pos ≤ i) && f.getLsbD (i - pos)) := by
  rw [← BitVec.getLsbD_eq_getElem, getLsbD_place]
  simp [h]

/-- A field is read back from where it was placed. -/
theorem extract_place_same {n : Nat} (f : BitVec n) (pos : Nat) (h : pos + n ≤ 16) :
    (place f pos).extractLsb' pos n = f := by
  apply BitVec.eq_of_getLsbD_eq
  intro i hi
  simp [getLsbD_place, hi]
  intro; omega

/-- A field reads as 0 where another was placed. -/
theorem extract_place_apart {n m : Nat} (f : BitVec m) (pos start : Nat) (h : pos + m ≤ start ∨ start + n ≤ pos) :
    (place f pos).extractLsb' start n = 0#n := by
  apply BitVec.eq_of_getLsbD_eq
  intro i hi
  simp only [BitVec.getLsbD_extractLsb', getLsbD_place, BitVec.getLsbD_zero, Bool.and_eq_false_iff, decide_eq_false_iff_not]
  rcases h with h | h
  · right; right; right
    exact BitVec.getLsbD_of_ge f _ (by omega)
  · right; right; left; omega

theorem highByte_wordOfBytes (hi lo : Byte) : highByte (wordOfBytes hi lo) = hi := by
  simp [highByte, wordOfBytes, BitVec.extractLsb'_or, extract_place_same, extract_place_apart]

theorem lowByte_wordOfBytes (hi lo : Byte) : lowByte (wordOfBytes hi lo) = lo := by
  simp [lowByte, wordOfBytes, BitVec.extractLsb'_or, extract_place_same, extract_place_apart]

/-- A word is its two bytes. -/
@[simp] theorem wordOfBytes_bytes (w : Word) : wordOfBytes (highByte w) (lowByte w) = w := by
  apply BitVec.eq_of_getLsbD_eq
  intro i hi
  simp only [wordOfBytes, highByte, lowByte, BitVec.getLsbD_or, getLsbD_place, BitVec.getLsbD_extractLsb', hi]
  by_cases h : 8 ≤ i
  · simp [h, show i - 8 < 8 by omega, show ¬ i < 8 by omega, show 8 + (i - 8) = i by omega]
  · simp [h, show i < 8 by omega]

/-- Two words with the same two bytes are the same. -/
theorem wordOfBytes_inj {hi lo hi' lo' : Byte} (h : wordOfBytes hi lo = wordOfBytes hi' lo') : hi = hi' ∧ lo = lo' :=
  ⟨by rw [← highByte_wordOfBytes hi lo, h, highByte_wordOfBytes], by rw [← lowByte_wordOfBytes hi lo, h, lowByte_wordOfBytes]⟩

end Sys2Proof
end

