-- ==== Sys2Proof/Laws/Memory.lean ====
section
/-! SUPPORT. The store: a read after a write, and the canonical form kept by every memory operation. -/

namespace Sys2Proof.Machine

theorem cellsRead_erase (cells : List Host.Cell) (k x : Nat) :
    cellsRead (cellsErase cells k) x = if x = k then unlistedByte else cellsRead cells x := by
  induction cells with
  | nil => simp [cellsErase, cellsRead]
  | cons c rest ih =>
    obtain ⟨key, b⟩ := c
    by_cases hk : k = key
    · subst hk
      by_cases hx : x = k <;> simp_all [cellsErase, cellsRead]
    · by_cases hx : x = key
      · subst hx
        simp [cellsErase, cellsRead, hk, Ne.symm hk]
      · simp [cellsErase, cellsRead, hk, hx, ih]

theorem cellsErase_keys (cells : List Host.Cell) (k : Nat) {c : Host.Cell} (h : c ∈ cellsErase cells k) :
    c ∈ cells ∧ c.1 ≠ k := by
  induction cells with
  | nil => simp [cellsErase] at h
  | cons d rest ih =>
    obtain ⟨key, b⟩ := d
    by_cases hk : k = key
    · rw [cellsErase, if_pos hk] at h
      exact ⟨List.mem_cons_of_mem _ (ih h).1, (ih h).2⟩
    · rw [cellsErase, if_neg hk] at h
      rcases List.mem_cons.mp h with rfl | h
      · exact ⟨List.mem_cons_self, Ne.symm hk⟩
      · exact ⟨List.mem_cons_of_mem _ (ih h).1, (ih h).2⟩

/-- Inserting at an address that is not listed. -/
theorem cellsRead_insert (cells : List Host.Cell) (k x : Nat) (v : Byte) (h : ∀ c ∈ cells, c.1 ≠ k) :
    cellsRead (cellsInsert cells k v) x = if x = k then v else cellsRead cells x := by
  induction cells with
  | nil => simp [cellsInsert, cellsRead]
  | cons c rest ih =>
    obtain ⟨key, b⟩ := c
    have hk : key ≠ k := h _ List.mem_cons_self
    by_cases hlt : k < key
    · simp [cellsInsert, cellsRead, hlt]
    · rw [cellsInsert, if_neg hlt]
      by_cases hx : x = key
      · subst hx; simp [cellsRead, hk]
      · simp [cellsRead, hx, ih fun c hc => h c (List.mem_cons_of_mem _ hc)]

/-- A byte reads as last written, and a write leaves every other byte alone, in every list of cells. -/
theorem cellsRead_write (cells : List Host.Cell) (k x : Nat) (v : Byte) :
    cellsRead (cellsWrite cells k v) x = if x = k then v else cellsRead cells x := by
  unfold cellsWrite
  split
  · rename_i hv
    rw [cellsRead_erase, hv]
  · rw [cellsRead_insert _ _ _ _ fun c hc => (cellsErase_keys cells k hc).2, cellsRead_erase]
    split <;> rfl

/-- A word reads as last written, and a write leaves every other word alone (R53, R57). -/
theorem Memory.read_write (m : Memory) (a v x : Word) : (m.write a v).read x = if x = a then v else m.read x := by
  by_cases h : x = a
  · subst h
    simp [Memory.read, Memory.write, cellsRead_write]
  · have hn : x.toNat ≠ a.toNat := fun e => h (BitVec.eq_of_toNat_eq e)
    simp [Memory.read, Memory.write, cellsRead_write, h, show ¬ 2 * x.toNat = 2 * a.toNat by omega,
      show ¬ 2 * x.toNat = 2 * a.toNat + 1 by omega, show ¬ 2 * x.toNat + 1 = 2 * a.toNat by omega]

@[simp] theorem Memory.read_write_same (m : Memory) (a v : Word) : (m.write a v).read a = v := by
  simp [Memory.read_write]

theorem Memory.read_write_other (m : Memory) {a x : Word} (v : Word) (h : x ≠ a) : (m.write a v).read x = m.read x := by
  simp [Memory.read_write, h]

@[simp] theorem Memory.read_empty (x : Word) : (Memory.mk []).read x = 0 := by
  apply BitVec.eq_of_getLsbD_eq
  intro i hi
  simp [Memory.read, cellsRead, wordOfBytes, unlistedByte, getLsbD_place]

theorem cellsErase_canonical {cells : List Host.Cell} (k : Nat) (h : cellsCanonical cells) :
    cellsCanonical (cellsErase cells k) := by
  refine ⟨?_, fun c hc => h.2 c (cellsErase_keys cells k hc).1⟩
  induction cells with
  | nil => simp [cellsErase]
  | cons c rest ih =>
    have hr : cellsCanonical rest := ⟨(List.pairwise_cons.mp h.1).2, fun c hc => h.2 c (List.mem_cons_of_mem _ hc)⟩
    unfold cellsErase
    split
    · exact ih hr
    · refine List.pairwise_cons.mpr ⟨fun d hd => ?_, ih hr⟩
      exact (List.pairwise_cons.mp h.1).1 d (cellsErase_keys rest k hd).1

theorem cellsInsert_mem (cells : List Host.Cell) (k : Nat) (v : Byte) {c : Host.Cell}
    (h : c ∈ cellsInsert cells k v) : c = (k, v) ∨ c ∈ cells := by
  induction cells with
  | nil => simpa [cellsInsert] using h
  | cons d rest ih =>
    obtain ⟨key, b⟩ := d
    unfold cellsInsert at h
    split at h
    · simpa using h
    · rcases List.mem_cons.mp h with rfl | h
      · exact Or.inr List.mem_cons_self
      · exact (ih h).imp_right (List.mem_cons_of_mem _)

theorem cellsInsert_canonical {cells : List Host.Cell} {k : Nat} {v : Byte} (h : cellsCanonical cells)
    (hk : ∀ c ∈ cells, c.1 ≠ k) (hb : k < 2 * 65536) (hv : v ≠ unlistedByte) : cellsCanonical (cellsInsert cells k v) := by
  refine ⟨?_, fun c hc => ?_⟩
  · induction cells with
    | nil => simp [cellsInsert]
    | cons d rest ih =>
      obtain ⟨key, b⟩ := d
      have hd := List.pairwise_cons.mp h.1
      have hr : cellsCanonical rest := ⟨hd.2, fun c hc => h.2 c (List.mem_cons_of_mem _ hc)⟩
      unfold cellsInsert
      split
      · rename_i hlt
        refine List.pairwise_cons.mpr ⟨fun c hc => ?_, h.1⟩
        rcases List.mem_cons.mp hc with rfl | hc
        · exact hlt
        · exact Nat.lt_trans hlt (hd.1 c hc)
      · rename_i hlt
        refine List.pairwise_cons.mpr ⟨fun c hc => ?_, ih hr fun c hc => hk c (List.mem_cons_of_mem _ hc)⟩
        rcases cellsInsert_mem rest k v hc with rfl | hc
        · have : key ≠ k := hk _ List.mem_cons_self
          simp only; omega
        · exact hd.1 c hc
  · rcases cellsInsert_mem cells k v hc with rfl | hc
    · exact ⟨hb, hv⟩
    · exact h.2 c hc

theorem cellsWrite_canonical {cells : List Host.Cell} (k : Nat) (v : Byte) (h : cellsCanonical cells)
    (hb : k < 2 * 65536) : cellsCanonical (cellsWrite cells k v) := by
  unfold cellsWrite
  split
  · exact cellsErase_canonical k h
  · rename_i hv
    exact cellsInsert_canonical (cellsErase_canonical k h) (fun c hc => (cellsErase_keys cells k hc).2) hb hv

theorem Memory.wf_iff (m : Memory) : m.wf = true ↔ cellsCanonical m.cells := decide_eq_true_iff

/-- A store keeps the canonical form. -/
theorem Memory.wf_write {m : Memory} (a v : Word) (h : m.wf = true) : (m.write a v).wf = true := by
  have ha := a.isLt
  rw [Memory.wf_iff] at h ⊢
  exact cellsWrite_canonical _ _ (cellsWrite_canonical _ _ h (by omega)) (by omega)

/-- A load keeps the canonical form. -/
theorem Memory.wf_load {m : Memory} (a : Word) (words : List Word) (h : m.wf = true) : (m.load a words).wf = true := by
  induction words generalizing m a with
  | nil => exact h
  | cons w rest ih => exact ih (a + 1) (Memory.wf_write a w h)

/-- A newly constructed engine's memory is in canonical form. -/
theorem State.construct_mem_wf (regInit : Reg → Word) (ccInit : BitVec 3) : (State.construct regInit ccInit).mem.wf = true := rfl

theorem State.reset_mem_wf : State.reset.mem.wf = true := State.construct_mem_wf _ _

end Sys2Proof.Machine
end

