-- ==== Sys2Proof/Laws/State.lean ====
section
/-! SUPPORT. What each update of the state leaves in each field, and the register file read after it is written. -/

namespace Sys2Proof.Machine

theorem Regs.get_set (g : Regs) (r q : Reg) (v : Word) : (g.set r v).get q = if q = r then v else g.get q := by
  cases r <;> cases q <;> rfl

theorem State.reg_setReg (s : State) (r q : Reg) (v : Word) : (s.setReg r v).reg q = if q = r then v else s.reg q :=
  Regs.get_set s.regs r q v

@[simp] theorem State.reg_setReg_same (s : State) (r : Reg) (v : Word) : (s.setReg r v).reg r = v := by
  simp [State.reg_setReg]

theorem State.reg_setReg_other (s : State) {r q : Reg} (v : Word) (h : q ≠ r) : (s.setReg r v).reg q = s.reg q := by
  simp [State.reg_setReg, h]

@[simp] theorem State.reg_setcc_same (s : State) (r : Reg) (v : Word) : (s.setcc r v).reg r = v :=
  State.reg_setReg_same s r v

theorem State.reg_setcc_other (s : State) {r q : Reg} (v : Word) (h : q ≠ r) : (s.setcc r v).reg q = s.reg q :=
  State.reg_setReg_other s v h

@[simp] theorem State.reg_enterTrap_link (s : State) : s.enterTrap.reg .r7 = s.pc := rfl

theorem State.reg_enterTrap_other (s : State) {q : Reg} (h : q ≠ .r7) : s.enterTrap.reg q = s.reg q :=
  State.reg_setReg_other s s.pc h

@[simp] theorem State.regs_setReg (s : State) (r : Reg) (v : Word) : (s.setReg r v).regs = s.regs.set r v := rfl
@[simp] theorem State.pc_setReg (s : State) (r : Reg) (v : Word) : (s.setReg r v).pc = s.pc := rfl
@[simp] theorem State.cc_setReg (s : State) (r : Reg) (v : Word) : (s.setReg r v).cc = s.cc := rfl
@[simp] theorem State.halted_setReg (s : State) (r : Reg) (v : Word) : (s.setReg r v).halted = s.halted := rfl
@[simp] theorem State.mem_setReg (s : State) (r : Reg) (v : Word) : (s.setReg r v).mem = s.mem := rfl
@[simp] theorem State.wait_setReg (s : State) (r : Reg) (v : Word) : (s.setReg r v).wait = s.wait := rfl
@[simp] theorem State.output_setReg (s : State) (r : Reg) (v : Word) : (s.setReg r v).output = s.output := rfl
@[simp] theorem State.input_setReg (s : State) (r : Reg) (v : Word) : (s.setReg r v).input = s.input := rfl
@[simp] theorem State.outputRoom_setReg (s : State) (r : Reg) (v : Word) : (s.setReg r v).outputRoom = s.outputRoom := rfl

@[simp] theorem State.reg_setPc (s : State) (v : Word) (q : Reg) : (s.setPc v).reg q = s.reg q := rfl
@[simp] theorem State.regs_setPc (s : State) (v : Word) : (s.setPc v).regs = s.regs := rfl
@[simp] theorem State.pc_setPc (s : State) (v : Word) : (s.setPc v).pc = v := rfl
@[simp] theorem State.cc_setPc (s : State) (v : Word) : (s.setPc v).cc = s.cc := rfl
@[simp] theorem State.halted_setPc (s : State) (v : Word) : (s.setPc v).halted = s.halted := rfl
@[simp] theorem State.mem_setPc (s : State) (v : Word) : (s.setPc v).mem = s.mem := rfl
@[simp] theorem State.wait_setPc (s : State) (v : Word) : (s.setPc v).wait = s.wait := rfl
@[simp] theorem State.output_setPc (s : State) (v : Word) : (s.setPc v).output = s.output := rfl
@[simp] theorem State.input_setPc (s : State) (v : Word) : (s.setPc v).input = s.input := rfl
@[simp] theorem State.outputRoom_setPc (s : State) (v : Word) : (s.setPc v).outputRoom = s.outputRoom := rfl

@[simp] theorem State.reg_advance (s : State) (q : Reg) : s.advance.reg q = s.reg q := rfl
@[simp] theorem State.regs_advance (s : State) : s.advance.regs = s.regs := rfl
@[simp] theorem State.pc_advance (s : State) : s.advance.pc = s.pc + 1 := rfl
@[simp] theorem State.cc_advance (s : State) : s.advance.cc = s.cc := rfl
@[simp] theorem State.halted_advance (s : State) : s.advance.halted = s.halted := rfl
@[simp] theorem State.mem_advance (s : State) : s.advance.mem = s.mem := rfl
@[simp] theorem State.wait_advance (s : State) : s.advance.wait = s.wait := rfl
@[simp] theorem State.output_advance (s : State) : s.advance.output = s.output := rfl
@[simp] theorem State.input_advance (s : State) : s.advance.input = s.input := rfl
@[simp] theorem State.outputRoom_advance (s : State) : s.advance.outputRoom = s.outputRoom := rfl

@[simp] theorem State.reg_store (s : State) (a v : Word) (q : Reg) : (s.store a v).reg q = s.reg q := rfl
@[simp] theorem State.regs_store (s : State) (a v : Word) : (s.store a v).regs = s.regs := rfl
@[simp] theorem State.pc_store (s : State) (a v : Word) : (s.store a v).pc = s.pc := rfl
@[simp] theorem State.cc_store (s : State) (a v : Word) : (s.store a v).cc = s.cc := rfl
@[simp] theorem State.halted_store (s : State) (a v : Word) : (s.store a v).halted = s.halted := rfl
@[simp] theorem State.mem_store (s : State) (a v : Word) : (s.store a v).mem = s.mem.write a v := rfl
@[simp] theorem State.wait_store (s : State) (a v : Word) : (s.store a v).wait = s.wait := rfl
@[simp] theorem State.output_store (s : State) (a v : Word) : (s.store a v).output = s.output := rfl
@[simp] theorem State.input_store (s : State) (a v : Word) : (s.store a v).input = s.input := rfl
@[simp] theorem State.outputRoom_store (s : State) (a v : Word) : (s.store a v).outputRoom = s.outputRoom := rfl

@[simp] theorem State.reg_halt (s : State) (q : Reg) : s.halt.reg q = s.reg q := rfl
@[simp] theorem State.regs_halt (s : State) : s.halt.regs = s.regs := rfl
@[simp] theorem State.pc_halt (s : State) : s.halt.pc = s.pc := rfl
@[simp] theorem State.cc_halt (s : State) : s.halt.cc = s.cc := rfl
@[simp] theorem State.halted_halt (s : State) : s.halt.halted = true := rfl
@[simp] theorem State.mem_halt (s : State) : s.halt.mem = s.mem := rfl
@[simp] theorem State.wait_halt (s : State) : s.halt.wait = s.wait := rfl
@[simp] theorem State.output_halt (s : State) : s.halt.output = s.output := rfl
@[simp] theorem State.input_halt (s : State) : s.halt.input = s.input := rfl
@[simp] theorem State.outputRoom_halt (s : State) : s.halt.outputRoom = s.outputRoom := rfl

@[simp] theorem State.regs_enterTrap (s : State) : s.enterTrap.regs = s.regs.set .r7 s.pc := rfl
@[simp] theorem State.pc_enterTrap (s : State) : s.enterTrap.pc = s.pc := rfl
@[simp] theorem State.cc_enterTrap (s : State) : s.enterTrap.cc = s.cc := rfl
@[simp] theorem State.halted_enterTrap (s : State) : s.enterTrap.halted = s.halted := rfl
@[simp] theorem State.mem_enterTrap (s : State) : s.enterTrap.mem = s.mem := rfl
@[simp] theorem State.wait_enterTrap (s : State) : s.enterTrap.wait = s.wait := rfl
@[simp] theorem State.output_enterTrap (s : State) : s.enterTrap.output = s.output := rfl
@[simp] theorem State.input_enterTrap (s : State) : s.enterTrap.input = s.input := rfl
@[simp] theorem State.outputRoom_enterTrap (s : State) : s.enterTrap.outputRoom = s.outputRoom := rfl

@[simp] theorem State.reg_waitAt (s : State) (p : WaitPoint) (q : Reg) : (s.waitAt p).reg q = s.reg q := rfl
@[simp] theorem State.regs_waitAt (s : State) (p : WaitPoint) : (s.waitAt p).regs = s.regs := rfl
@[simp] theorem State.pc_waitAt (s : State) (p : WaitPoint) : (s.waitAt p).pc = s.pc := rfl
@[simp] theorem State.cc_waitAt (s : State) (p : WaitPoint) : (s.waitAt p).cc = s.cc := rfl
@[simp] theorem State.halted_waitAt (s : State) (p : WaitPoint) : (s.waitAt p).halted = s.halted := rfl
@[simp] theorem State.mem_waitAt (s : State) (p : WaitPoint) : (s.waitAt p).mem = s.mem := rfl
@[simp] theorem State.wait_waitAt (s : State) (p : WaitPoint) : (s.waitAt p).wait = some p := rfl
@[simp] theorem State.output_waitAt (s : State) (p : WaitPoint) : (s.waitAt p).output = s.output := rfl
@[simp] theorem State.input_waitAt (s : State) (p : WaitPoint) : (s.waitAt p).input = s.input := rfl
@[simp] theorem State.outputRoom_waitAt (s : State) (p : WaitPoint) : (s.waitAt p).outputRoom = s.outputRoom := rfl

@[simp] theorem State.regs_setcc (s : State) (r : Reg) (v : Word) : (s.setcc r v).regs = s.regs.set r v := rfl
@[simp] theorem State.pc_setcc (s : State) (r : Reg) (v : Word) : (s.setcc r v).pc = s.pc := rfl
@[simp] theorem State.cc_setcc (s : State) (r : Reg) (v : Word) : (s.setcc r v).cc = ccOf v := rfl
@[simp] theorem State.halted_setcc (s : State) (r : Reg) (v : Word) : (s.setcc r v).halted = s.halted := rfl
@[simp] theorem State.mem_setcc (s : State) (r : Reg) (v : Word) : (s.setcc r v).mem = s.mem := rfl
@[simp] theorem State.wait_setcc (s : State) (r : Reg) (v : Word) : (s.setcc r v).wait = s.wait := rfl
@[simp] theorem State.output_setcc (s : State) (r : Reg) (v : Word) : (s.setcc r v).output = s.output := rfl
@[simp] theorem State.input_setcc (s : State) (r : Reg) (v : Word) : (s.setcc r v).input = s.input := rfl
@[simp] theorem State.outputRoom_setcc (s : State) (r : Reg) (v : Word) : (s.setcc r v).outputRoom = s.outputRoom := rfl

@[simp] theorem State.reg_answer (s : State) (x : InputAnswer) (q : Reg) : (s.answer x).reg q = s.reg q := rfl
@[simp] theorem State.regs_answer (s : State) (x : InputAnswer) : (s.answer x).regs = s.regs := rfl
@[simp] theorem State.pc_answer (s : State) (x : InputAnswer) : (s.answer x).pc = s.pc := rfl
@[simp] theorem State.cc_answer (s : State) (x : InputAnswer) : (s.answer x).cc = s.cc := rfl
@[simp] theorem State.halted_answer (s : State) (x : InputAnswer) : (s.answer x).halted = s.halted := rfl
@[simp] theorem State.mem_answer (s : State) (x : InputAnswer) : (s.answer x).mem = s.mem := rfl
@[simp] theorem State.wait_answer (s : State) (x : InputAnswer) : (s.answer x).wait = s.wait := rfl
@[simp] theorem State.output_answer (s : State) (x : InputAnswer) : (s.answer x).output = s.output := rfl
@[simp] theorem State.input_answer (s : State) (x : InputAnswer) : (s.answer x).input = s.input ++ [x] := rfl
@[simp] theorem State.outputRoom_answer (s : State) (x : InputAnswer) : (s.answer x).outputRoom = s.outputRoom := rfl

@[simp] theorem State.reg_clearWait (s : State) (q : Reg) : s.clearWait.reg q = s.reg q := rfl
@[simp] theorem State.regs_clearWait (s : State) : s.clearWait.regs = s.regs := rfl
@[simp] theorem State.pc_clearWait (s : State) : s.clearWait.pc = s.pc := rfl
@[simp] theorem State.cc_clearWait (s : State) : s.clearWait.cc = s.cc := rfl
@[simp] theorem State.halted_clearWait (s : State) : s.clearWait.halted = s.halted := rfl
@[simp] theorem State.mem_clearWait (s : State) : s.clearWait.mem = s.mem := rfl
@[simp] theorem State.wait_clearWait (s : State) : s.clearWait.wait = none := rfl
@[simp] theorem State.output_clearWait (s : State) : s.clearWait.output = s.output := rfl
@[simp] theorem State.input_clearWait (s : State) : s.clearWait.input = s.input := rfl
@[simp] theorem State.outputRoom_clearWait (s : State) : s.clearWait.outputRoom = s.outputRoom := rfl

@[simp] theorem State.reg_blockedAt (s t : State) (p : WaitPoint) (q : Reg) : (s.blockedAt p t).reg q = s.reg q := rfl
@[simp] theorem State.regs_blockedAt (s t : State) (p : WaitPoint) : (s.blockedAt p t).regs = s.regs := rfl
@[simp] theorem State.pc_blockedAt (s t : State) (p : WaitPoint) : (s.blockedAt p t).pc = s.pc := rfl
@[simp] theorem State.cc_blockedAt (s t : State) (p : WaitPoint) : (s.blockedAt p t).cc = s.cc := rfl
@[simp] theorem State.halted_blockedAt (s t : State) (p : WaitPoint) : (s.blockedAt p t).halted = s.halted := rfl
@[simp] theorem State.mem_blockedAt (s t : State) (p : WaitPoint) : (s.blockedAt p t).mem = s.mem := rfl
@[simp] theorem State.wait_blockedAt (s t : State) (p : WaitPoint) : (s.blockedAt p t).wait = some p := rfl
@[simp] theorem State.output_blockedAt (s t : State) (p : WaitPoint) : (s.blockedAt p t).output = t.output := rfl
@[simp] theorem State.input_blockedAt (s t : State) (p : WaitPoint) : (s.blockedAt p t).input = t.input := rfl
@[simp] theorem State.outputRoom_blockedAt (s t : State) (p : WaitPoint) : (s.blockedAt p t).outputRoom = t.outputRoom := rfl

@[simp] theorem State.cc_inFlight (s : State) (p : WaitPoint) : (s.inFlight p).cc = s.cc := by cases p <;> rfl
@[simp] theorem State.halted_inFlight (s : State) (p : WaitPoint) : (s.inFlight p).halted = s.halted := by cases p <;> rfl
@[simp] theorem State.mem_inFlight (s : State) (p : WaitPoint) : (s.inFlight p).mem = s.mem := by cases p <;> rfl
@[simp] theorem State.wait_inFlight (s : State) (p : WaitPoint) : (s.inFlight p).wait = s.wait := by cases p <;> rfl
@[simp] theorem State.output_inFlight (s : State) (p : WaitPoint) : (s.inFlight p).output = s.output := by cases p <;> rfl
@[simp] theorem State.input_inFlight (s : State) (p : WaitPoint) : (s.inFlight p).input = s.input := by cases p <;> rfl
@[simp] theorem State.outputRoom_inFlight (s : State) (p : WaitPoint) : (s.inFlight p).outputRoom = s.outputRoom := by cases p <;> rfl

end Sys2Proof.Machine
end

