-- ==== Sys2Proof/Laws/Ops.lean ====
section
/-! SUPPORT. For each shared operation, once: everything it can do. -/

namespace Sys2Proof.Machine

/-! The intercepting read. -/

theorem addressKind_ordinary {a : Word} (h0 : a ≠ 0xFE00) (h2 : a ≠ 0xFE02) : addressKind a = .ordinary := by
  rw [addressKind, inputStatusAddr, inputDataAddr, if_neg h0, if_neg h2]

@[simp] theorem addressKind_status : addressKind 0xFE00 = .inputStatus := by decide

@[simp] theorem addressKind_data : addressKind 0xFE02 = .inputData := by decide

theorem memRead_ordinary {a : Word} (h0 : a ≠ 0xFE00) (h2 : a ≠ 0xFE02) (s : State) :
    memRead a s = .value (s.mem.read a) s := by
  simp only [memRead, addressKind_ordinary h0 h2]

@[simp] theorem memRead_status (s : State) : memRead 0xFE00 s = .value Config.kbsrReady s := rfl

@[simp] theorem memRead_data (s : State) : memRead 0xFE02 s = inputRead s := rfl

/-- A read that gives a value takes at most answers of the host, and changes nothing else. -/
theorem memRead_value {a : Word} {s s' : State} {v : Word} (h : memRead a s = .value v s') :
    (a ≠ 0xFE02 ∧ s' = s) ∨ ∃ b rest, a = 0xFE02 ∧ s.input = .byte b :: rest ∧ b ≠ 0x03 ∧
      v = (translateInput b).setWidth 16 ∧ s' = { s with input := rest } := by
  by_cases h2 : a = 0xFE02
  · subst h2
    right
    simp only [memRead_data, inputRead] at h
    split at h
    · cases h
    · cases h
    · rename_i b rest he
      split at h
      · cases h
      · rename_i hb
        cases h
        exact ⟨b, rest, rfl, he, hb, rfl, rfl⟩
  · left
    by_cases h0 : a = 0xFE00
    · subst h0
      simp only [memRead_status, Reading.value.injEq] at h
      exact ⟨h2, h.2.symm⟩
    · simp only [memRead_ordinary h0 h2, Reading.value.injEq] at h
      exact ⟨h2, h.2.symm⟩

/-- Only a read of 0xFE02 waits, and only where the host has not answered. -/
theorem memRead_waits {a : Word} {s : State} (h : memRead a s = .waits) : a = 0xFE02 ∧ s.input = [] := by
  by_cases h2 : a = 0xFE02
  · subst h2
    simp only [memRead_data, inputRead] at h
    split at h
    · rename_i he
      exact ⟨rfl, he⟩
    · cases h
    · split at h <;> cases h
  · by_cases h0 : a = 0xFE00
    · subst h0; rw [memRead_status] at h; cases h
    · rw [memRead_ordinary h0 h2] at h; cases h

/-- Only a read of 0xFE02 stops the run, on the byte 0x03 or on Fail. -/
theorem memRead_stops {a : Word} {s : State} {f : Fault} (h : memRead a s = .stops f) :
    a = 0xFE02 ∧ ((∃ rest, s.input = .fail :: rest ∧ f = .ioFailure .input s.output) ∨
      ∃ rest, s.input = .byte 0x03 :: rest ∧ f = .inputCancelled 0xFE02 s.output) := by
  by_cases h2 : a = 0xFE02
  · subst h2
    refine ⟨rfl, ?_⟩
    simp only [memRead_data, inputRead] at h
    split at h
    · cases h
    · rename_i rest he
      cases h
      exact Or.inl ⟨rest, he, rfl⟩
    · rename_i b rest he
      split at h
      · rename_i hb
        cases h; subst hb
        exact Or.inr ⟨rest, he, rfl⟩
      · cases h
  · by_cases h0 : a = 0xFE00
    · subst h0; rw [memRead_status] at h; cases h
    · rw [memRead_ordinary h0 h2] at h; cases h

/-! `readThen` and `outputThen`. -/

theorem readThen_value {a : Word} {p : WaitPoint} {s s' : State} {v : Word} {k : Word → State → Result}
    (h : memRead a s = .value v s') : readThen a p s k = k v s' := by
  simp only [readThen, h]

theorem readThen_waits {a : Word} {p : WaitPoint} {s : State} {k : Word → State → Result}
    (h : memRead a s = .waits) : readThen a p s k = .next (s.waitAt p) := by
  simp only [readThen, h]

theorem readThen_stops {a : Word} {p : WaitPoint} {s : State} {f : Fault} {k : Word → State → Result}
    (h : memRead a s = .stops f) : readThen a p s k = .fault f := by
  simp only [readThen, h]

theorem readThen_ordinary {a : Word} {p : WaitPoint} {s : State} {k : Word → State → Result} (h0 : a ≠ 0xFE00)
    (h2 : a ≠ 0xFE02) : readThen a p s k = k (s.mem.read a) s :=
  readThen_value (memRead_ordinary h0 h2 s)

theorem readThen_next {a : Word} {p : WaitPoint} {s t : State} {k : Word → State → Result}
    (h : readThen a p s k = .next t) :
    (∃ v s', memRead a s = .value v s' ∧ k v s' = .next t) ∨ (memRead a s = .waits ∧ t = s.waitAt p) := by
  unfold readThen at h
  split at h
  · rename_i v s' he
    exact Or.inl ⟨v, s', he, h⟩
  · rename_i he
    cases h
    exact Or.inr ⟨he, rfl⟩
  · cases h

theorem readThen_fault {a : Word} {p : WaitPoint} {s : State} {f : Fault} {k : Word → State → Result}
    (h : readThen a p s k = .fault f) :
    (∃ v s', memRead a s = .value v s' ∧ k v s' = .fault f) ∨ memRead a s = .stops f := by
  unfold readThen at h
  split at h
  · rename_i v s' he
    exact Or.inl ⟨v, s', he, h⟩
  · cases h
  · rename_i he
    cases h
    exact Or.inr he

theorem readThen_refused {a : Word} {p : WaitPoint} {s : State} {r : Refusal} {k : Word → State → Result}
    (h : readThen a p s k = .refused r) : ∃ v s', memRead a s = .value v s' ∧ k v s' = .refused r := by
  unfold readThen at h
  split at h
  · rename_i v s' he
    exact ⟨v, s', he, h⟩
  · cases h
  · cases h

/-- An event the host accepts is appended to the history; a failing host ends the run. -/
theorem outputThen_cases (e : OutputEvent) (s : State) (k : State → Result) :
    (s.outputRoom = some 0 ∧ outputThen e s k = .fault (.ioFailure .output s.output)) ∨
    ∃ room, s.outputRoom ≠ some 0 ∧ outputThen e s k = k { s with output := s.output ++ [e], outputRoom := room } := by
  unfold outputThen
  split
  · rename_i h
    exact Or.inr ⟨none, by simp [h], by rw [← h]⟩
  · rename_i n h
    exact Or.inr ⟨some n, by simp [h], rfl⟩
  · rename_i h
    exact Or.inl ⟨h, rfl⟩

theorem outputThen_next {e : OutputEvent} {s t : State} {k : State → Result} (h : outputThen e s k = .next t) :
    ∃ room, k { s with output := s.output ++ [e], outputRoom := room } = .next t := by
  rcases outputThen_cases e s k with ⟨_, h'⟩ | ⟨room, _, h'⟩
  · rw [h'] at h; cases h
  · exact ⟨room, h' ▸ h⟩

/-! How loads and indirect stores end. -/

theorem loadFrom_next {addr : Word} {a : Reg} {s t : State} (h : loadFrom addr a s = .next t) :
    (∃ v s', memRead addr s = .value v s' ∧ t = s'.setcc a v) ∨ (memRead addr s = .waits ∧ t = s.waitAt (.load a)) := by
  rcases readThen_next h with ⟨v, s', hr, hk⟩ | h
  · cases hk
    exact Or.inl ⟨v, s', hr, rfl⟩
  · exact Or.inr h

theorem loadIndirectFrom_next {addr : Word} {a : Reg} {s t : State} (h : loadIndirectFrom addr a s = .next t) :
    (∃ p s', memRead addr s = .value p s' ∧ loadFrom p a s' = .next t) ∨
      (memRead addr s = .waits ∧ t = s.waitAt (.loadPointer a)) :=
  readThen_next h

theorem storeIndirectFrom_next {addr : Word} {a : Reg} {s t : State} (h : storeIndirectFrom addr a s = .next t) :
    (∃ p s', memRead addr s = .value p s' ∧ t = s'.store p (s'.reg a)) ∨
      (memRead addr s = .waits ∧ t = s.waitAt (.storePointer a)) := by
  rcases readThen_next h with ⟨p, s', hr, hk⟩ | h
  · cases hk
    exact Or.inl ⟨p, s', hr, rfl⟩
  · exact Or.inr h

/-! The string loop. -/

/-- What a string leaves alone: everything but the ports and the wait. -/
theorem stringLoop_next {fuel : Nat} {a : Word} {s t : State} (h : stringLoop fuel a s = .next t) :
    t.regs = s.regs ∧ t.pc = s.pc ∧ t.cc = s.cc ∧ t.halted = s.halted ∧ t.mem = s.mem ∧
      (t.wait = s.wait ∨ t.wait = some .string) ∧ s.output <+: t.output ∧ t.input <:+ s.input := by
  induction fuel generalizing a s with
  | zero =>
    cases h
    simp
  | succ fuel ih =>
    rcases readThen_next h with ⟨w, s', hr, hk⟩ | ⟨_, rfl⟩
    · have hs : ∃ rest, s' = { s with input := rest } ∧ rest <:+ s.input := by
        rcases memRead_value hr with ⟨_, rfl⟩ | ⟨b, rest, _, he, _, _, rfl⟩
        · exact ⟨s'.input, rfl, List.suffix_rfl⟩
        · exact ⟨rest, rfl, he ▸ List.suffix_cons _ _⟩
      obtain ⟨rest, rfl, hin⟩ := hs
      split at hk
      · cases hk
        simp [hin]
      · obtain ⟨room, hn⟩ := outputThen_next hk
        obtain ⟨h1, h2, h3, h4, h5, h6, h7, h8⟩ := ih hn
        exact ⟨h1, h2, h3, h4, h5, h6, (List.prefix_append _ _).trans h7, h8.trans hin⟩
    · simp

theorem printFrom_next {a : Word} {s t : State} (h : printFrom a s = .next t) :
    t.regs = s.regs ∧ t.pc = s.pc ∧ t.cc = s.cc ∧ t.halted = s.halted ∧ t.mem = s.mem ∧
      (t.wait = s.wait ∨ t.wait = some .string) ∧ s.output <+: t.output ∧ t.input <:+ s.input :=
  stringLoop_next h

/-- A read before 0xFE02 takes one of the reads a string has left. -/
theorem stringReads_advance {a : Word} (h : a ≠ 0xFE02) (s : State) : stringReads a s = stringReads (a + 1) s + 1 := by
  have hne : (0xFE02 - a : Word).toNat ≠ 0 := by
    intro e
    apply h
    have : (0xFE02 - a : Word) = 0 := BitVec.eq_of_toNat_eq (by simpa using e)
    bv_omega
  have hs : (0xFE02 - (a + 1) : Word) = (0xFE02 - a) - 1 := by bv_omega
  simp only [stringReads, inputDataAddr, hs]
  have : ((0xFE02 - a : Word) - 1).toNat = (0xFE02 - a : Word).toNat - 1 := by bv_omega
  omega

/-- A read of 0xFE02 takes one of the reads a string has left, and one answer of the host. -/
theorem stringReads_answered {s : State} {x : InputAnswer} {rest : List InputAnswer} (h : s.input = x :: rest) :
    stringReads 0xFE02 s = stringReads 0xFE03 { s with input := rest } + 1 := by
  simp only [stringReads, inputDataAddr, h, List.length_cons]
  have h1 : (0xFE02 - 0xFE02 : Word).toNat = 0 := by decide
  have h2 : (0xFE02 - 0xFE03 : Word).toNat = 65535 := by decide
  omega

theorem stringReads_pos (a : Word) (s : State) : 0 < stringReads a s := by
  simp only [stringReads]; omega

/-! The Trap Dispatcher. -/

/-- A vector's behaviour, by its vector (R151). -/
theorem dispatchTrap_cases (v : BitVec 8) (s : State) :
    (v = 0x20 ∧ dispatchTrap v s = trapGetc s) ∨ (v = 0x21 ∧ dispatchTrap v s = trapOut s) ∨
    (v = 0x22 ∧ dispatchTrap v s = trapPuts s) ∨ (v = 0x25 ∧ dispatchTrap v s = trapHalt s) ∨
    ((v ≠ 0x20 ∧ v ≠ 0x21 ∧ v ≠ 0x22 ∧ v ≠ 0x25) ∧ dispatchTrap v s = trapOther s) := by
  unfold dispatchTrap
  by_cases h0 : v = 0x20
  · exact Or.inl ⟨h0, by simp [h0]⟩
  by_cases h1 : v = 0x21
  · exact Or.inr (Or.inl ⟨h1, by simp [h1]⟩)
  by_cases h2 : v = 0x22
  · exact Or.inr (Or.inr (Or.inl ⟨h2, by simp [h2]⟩))
  by_cases h5 : v = 0x25
  · exact Or.inr (Or.inr (Or.inr (Or.inl ⟨h5, by simp [h5]⟩)))
  · exact Or.inr (Or.inr (Or.inr (Or.inr ⟨⟨h0, h1, h2, h5⟩, by simp only [if_neg h0, if_neg h1, if_neg h2, if_neg h5]⟩)))

/-! The cycle. -/

theorem fetchFrom_next {addr : Word} {s t : State} (h : fetchFrom addr s = .next t) :
    (∃ ir s', memRead addr s = .value ir s' ∧ exec (decode ir) s'.advance = .next t) ∨
      (memRead addr s = .waits ∧ t = s.waitAt .fetch) :=
  readThen_next h

/-- What a step shows where it goes on: a completed instruction's own state, or the blocked engine. -/
theorem holdBack_next {s t : State} {r : Result} (h : holdBack s r = .next t) :
    (t.wait = none ∧ r = .next t) ∨ ∃ p u, u.wait = some p ∧ r = .next u ∧ t = s.blockedAt p u := by
  unfold holdBack at h
  split at h
  · split at h
    · rename_i hw
      cases h
      exact Or.inl ⟨hw, rfl⟩
    · rename_i p hw
      cases h
      exact Or.inr ⟨p, _, hw, rfl, rfl⟩
  · cases h
  · cases h

theorem holdBack_fault {s : State} {r : Result} {f : Fault} (h : holdBack s r = .fault f) : r = .fault f := by
  unfold holdBack at h
  split at h
  · split at h <;> cases h
  · exact h
  · cases h

theorem holdBack_refused {s : State} {r : Result} {x : Refusal} (h : holdBack s r = .refused x) : r = .refused x := by
  unfold holdBack at h
  split at h
  · split at h <;> cases h
  · cases h
  · exact h

theorem holdBack_complete {t : State} (s : State) (h : t.wait = none) : holdBack s (.next t) = .next t := by
  simp only [holdBack, h]

theorem holdBack_blocked {t : State} {p : WaitPoint} (s : State) (h : t.wait = some p) :
    holdBack s (.next t) = .next (s.blockedAt p t) := by
  simp only [holdBack, h]

@[simp] theorem holdBack_of_fault (s : State) (f : Fault) : holdBack s (.fault f) = .fault f := rfl

/-- A step by what the engine is doing (R91, R92). -/
theorem step_cases (s : State) :
    (s.halted = true ∧ step s = .next s) ∨
    (s.halted = false ∧ s.wait = none ∧ step s = holdBack s (cycle s)) ∨
    ∃ p, s.halted = false ∧ s.wait = some p ∧ step s = holdBack s (goOnFrom p (s.clearWait.inFlight p)) := by
  cases hh : s.halted with
  | true => exact Or.inl ⟨rfl, by simp [step, runStep, hh]⟩
  | false =>
    right
    cases hw : s.wait with
    | none => exact Or.inl ⟨rfl, rfl, by simp [step, runStep, hh, continueRun, hw]⟩
    | some p => exact Or.inr ⟨p, rfl, rfl, by simp [step, runStep, hh, continueRun, hw]⟩

/-- An engine that runs and waits for nothing begins the instruction at `pc`. -/
theorem step_running {s : State} (hh : s.halted = false) (hw : s.wait = none) :
    step s = holdBack s (fetchFrom s.pc s) := by
  rcases step_cases s with ⟨h, _⟩ | ⟨_, _, h⟩ | ⟨p, _, h, _⟩
  · rw [hh] at h; cases h
  · exact h
  · rw [hw] at h; cases h

/-- An engine that waits goes on from where it waits. -/
theorem step_waiting {s : State} {p : WaitPoint} (hh : s.halted = false) (hw : s.wait = some p) :
    step s = holdBack s (goOnFrom p (s.clearWait.inFlight p)) := by
  rcases step_cases s with ⟨h, _⟩ | ⟨_, h, _⟩ | ⟨q, _, h, hs⟩
  · rw [hh] at h; cases h
  · rw [hw] at h; cases h
  · rw [hw] at h; cases h; exact hs

end Sys2Proof.Machine
end

