-- ==== Sys2Proof/Laws/PerInstr.lean ====
section
/-! SUPPORT. Statements about every instruction as syntax, one lemma per constructor. -/

namespace Sys2Proof.Laws

/-- The opcode of an instruction, by the opcode map of R84. -/
def opcodeOf : Instr → BitVec 4
  | .addReg _ _ _ => 0x1 | .addImm _ _ _ => 0x1 | .andReg _ _ _ => 0x5 | .andImm _ _ _ => 0x5 | .not _ _ => 0x9
  | .br _ _ => 0x0 | .jmp _ => 0xC | .jsr _ => 0x4 | .jsrr _ => 0x4
  | .ld _ _ => 0x2 | .ldi _ _ => 0xA | .ldr _ _ _ => 0x6 | .lea _ _ => 0xE
  | .st _ _ => 0x3 | .sti _ _ => 0xB | .str _ _ _ => 0x7
  | .rti _ => 0x8 | .trap _ => 0xF | .unknown _ => 0xD

theorem opField_or (v w : Word) : opField (v ||| w) = opField v ||| opField w := BitVec.extractLsb'_or

theorem opField_opcode (op : BitVec 4) : opField (place op 12) = op := extract_place_same op 12 (by decide)

theorem opField_operand {n : Nat} (f : BitVec n) (pos : Nat) (h : pos + n ≤ 12) : opField (place f pos) = 0 :=
  extract_place_apart f pos 12 (Or.inl h)

/-- The encoded word carries the opcode of R84 in its bits 15-12. -/
def OpcodeField.Statement (i : Instr) : Prop := opField (encode i) = opcodeOf i

namespace OpcodeField

theorem addReg (a b c : Reg) : Statement (.addReg a b c) := by
  simp [Statement, encode, opcodeOf, opField_or, opField_opcode, opField_operand]

theorem addImm (a b : Reg) (imm : BitVec 5) : Statement (.addImm a b imm) := by
  simp [Statement, encode, opcodeOf, opField_or, opField_opcode, opField_operand]

theorem andReg (a b c : Reg) : Statement (.andReg a b c) := by
  simp [Statement, encode, opcodeOf, opField_or, opField_opcode, opField_operand]

theorem andImm (a b : Reg) (imm : BitVec 5) : Statement (.andImm a b imm) := by
  simp [Statement, encode, opcodeOf, opField_or, opField_opcode, opField_operand]

theorem not (a b : Reg) : Statement (.not a b) := by
  simp [Statement, encode, opcodeOf, opField_or, opField_opcode, opField_operand]

theorem br (nzp : BitVec 3) (off : BitVec 9) : Statement (.br nzp off) := by
  simp [Statement, encode, opcodeOf, opField_or, opField_opcode, opField_operand]

theorem jmp (b : Reg) : Statement (.jmp b) := by
  simp [Statement, encode, opcodeOf, opField_or, opField_opcode, opField_operand]

theorem jsr (off : BitVec 11) : Statement (.jsr off) := by
  simp [Statement, encode, opcodeOf, opField_or, opField_opcode, opField_operand]

theorem jsrr (b : Reg) : Statement (.jsrr b) := by
  simp [Statement, encode, opcodeOf, opField_or, opField_opcode, opField_operand]

theorem ld (a : Reg) (off : BitVec 9) : Statement (.ld a off) := by
  simp [Statement, encode, opcodeOf, opField_or, opField_opcode, opField_operand]

theorem ldi (a : Reg) (off : BitVec 9) : Statement (.ldi a off) := by
  simp [Statement, encode, opcodeOf, opField_or, opField_opcode, opField_operand]

theorem ldr (a b : Reg) (off : BitVec 6) : Statement (.ldr a b off) := by
  simp [Statement, encode, opcodeOf, opField_or, opField_opcode, opField_operand]

theorem lea (a : Reg) (off : BitVec 9) : Statement (.lea a off) := by
  simp [Statement, encode, opcodeOf, opField_or, opField_opcode, opField_operand]

theorem st (a : Reg) (off : BitVec 9) : Statement (.st a off) := by
  simp [Statement, encode, opcodeOf, opField_or, opField_opcode, opField_operand]

theorem sti (a : Reg) (off : BitVec 9) : Statement (.sti a off) := by
  simp [Statement, encode, opcodeOf, opField_or, opField_opcode, opField_operand]

theorem str (a b : Reg) (off : BitVec 6) : Statement (.str a b off) := by
  simp [Statement, encode, opcodeOf, opField_or, opField_opcode, opField_operand]

theorem rti (x : BitVec 12) : Statement (.rti x) := by
  simp [Statement, encode, opcodeOf, opField_or, opField_opcode, opField_operand]

theorem trap (vect : BitVec 8) : Statement (.trap vect) := by
  simp [Statement, encode, opcodeOf, opField_or, opField_opcode, opField_operand]

theorem unknown (x : BitVec 12) : Statement (.unknown x) := by
  simp [Statement, encode, opcodeOf, opField_or, opField_opcode, opField_operand]

end OpcodeField

end Sys2Proof.Laws
end

