-- ==== Sys2Proof/Machine/Assembly.lean ====
section
/-! DEFINITION. The assembler spelling of an instruction (R88). Decimal immediates are the signed field values. -/

namespace Sys2Proof.Machine

/-- `R0` to `R7` (R88). -/
def regName : Reg → String
  | .r0 => "R0" | .r1 => "R1" | .r2 => "R2" | .r3 => "R3" | .r4 => "R4" | .r5 => "R5" | .r6 => "R6" | .r7 => "R7"

/-- `#n`, the signed value of a field (R88). -/
def signedText {n : Nat} (f : BitVec n) : String := "#" ++ toString f.toInt

/-- One hexadecimal digit. -/
def hexDigit (d : Nat) : String := ("0123456789ABCDEF".toList.getD d '?').toString

/-- A trap vector, `0xNN` (R88). -/
def vectorText (v : BitVec 8) : String := "0x" ++ hexDigit (v.toNat / 16) ++ hexDigit (v.toNat % 16)

/-- The letters of a BR mask, `000` where there is none (R88). -/
def maskText (nzp : BitVec 3) : String :=
  if nzp = 0 then "000"
  else (if nzp.getLsbD 2 then "n" else "") ++ (if nzp.getLsbD 1 then "z" else "") ++ (if nzp.getLsbD 0 then "p" else "")

/-- A mnemonic with its operands, separated by commas (R88). -/
def spell (mnemonic : String) (operands : List String) : String :=
  if operands.isEmpty then mnemonic else mnemonic ++ " " ++ String.intercalate ", " operands

/-- The spelling of an instruction (R88). The unknown opcode has none; it is shown in parentheses, as R84 names it. -/
def assembly : Instr → String
  | .addReg a b c => spell "ADD" [regName a, regName b, regName c]
  | .addImm a b imm => spell "ADD" [regName a, regName b, signedText imm]
  | .andReg a b c => spell "AND" [regName a, regName b, regName c]
  | .andImm a b imm => spell "AND" [regName a, regName b, signedText imm]
  | .not a b => spell "NOT" [regName a, regName b]
  | .br nzp off => spell ("BR" ++ maskText nzp) [signedText off]
  | .jmp b => spell "JMP" [regName b]
  | .jsr off => spell "JSR" [signedText off]
  | .jsrr b => spell "JSRR" [regName b]
  | .ld a off => spell "LD" [regName a, signedText off]
  | .ldi a off => spell "LDI" [regName a, signedText off]
  | .ldr a b off => spell "LDR" [regName a, regName b, signedText off]
  | .lea a off => spell "LEA" [regName a, signedText off]
  | .st a off => spell "ST" [regName a, signedText off]
  | .sti a off => spell "STI" [regName a, signedText off]
  | .str a b off => spell "STR" [regName a, regName b, signedText off]
  | .rti _ => "RTI"
  | .trap vect => spell "TRAP" [vectorText vect]
  | .unknown _ => "(unknown opcode)"

end Sys2Proof.Machine
end

