-- ==== Sys2Proof/Tests/Slice0.lean ====
section
/-! SUPPORT. Tests on fixed values, the expected results from 95_test_vectors.md (its vector is named in the comment) or from
the rule named, and for every obligation with hypotheses a witness that they can be met together. -/

namespace Sys2Proof.Tests

open Sys2Proof Sys2Proof.Machine

/-- A fresh engine with every register 0 and no flag set, about to fetch at `pc`, where the word `w` is. -/
def startAt (pc w : Word) : State := { (State.construct (fun _ => 0) 0).store pc w with pc := pc }

/-- A fresh engine about to execute `w` at 0x3000. -/
def start (w : Word) : State := startAt 0x3000 w

/-- The same engine with the host's answers. -/
def heard (l : List InputAnswer) (s : State) : State := { s with input := l }

/-- The same engine with a host that accepts `n` more events. -/
def room (n : Nat) (s : State) : State := { s with outputRoom := some n }

/-- The same engine with other condition codes. -/
def flags (cc : BitVec 3) (s : State) : State := { s with cc := cc }

/-- Part of the next state, where there is one. -/
def after {α : Type} (r : Result) (part : State → α) : Option α :=
  match r with
  | .next t => some (part t)
  | .fault _ => none
  | .refused _ => none

/-- The fault, where there is one. -/
def stop (r : Result) : Option Fault :=
  match r with
  | .next _ => none
  | .fault f => some f
  | .refused _ => none

/-! Words written out bit by bit from R82, and what they decode to. -/

theorem test_decode_add_reg : decode 0b0001_001_010_0_00_011 = .addReg .r1 .r2 .r3 := by decide
theorem test_decode_add_imm : decode 0b0001_110_101_1_10110 = .addImm .r6 .r5 0b10110 := by decide
theorem test_decode_and_reg : decode 0b0101_100_011_0_00_111 = .andReg .r4 .r3 .r7 := by decide
theorem test_decode_and_imm : decode 0b0101_001_010_1_01101 = .andImm .r1 .r2 0b01101 := by decide
theorem test_decode_not : decode 0b1001_010_001_111111 = .not .r2 .r1 := by decide
theorem test_decode_br : decode 0b0000_101_100000001 = .br 0b101 0b100000001 := by decide
theorem test_decode_jmp : decode 0b1100_000_110_000000 = .jmp .r6 := by decide
theorem test_decode_jsr : decode 0b0100_1_10000000011 = .jsr 0b10000000011 := by decide
theorem test_decode_jsrr : decode 0b0100_0_00_011_000000 = .jsrr .r3 := by decide
theorem test_decode_ld : decode 0b0010_001_000000100 = .ld .r1 0b000000100 := by decide
theorem test_decode_ldi : decode 0b1010_010_110000011 = .ldi .r2 0b110000011 := by decide
theorem test_decode_ldr : decode 0b0110_011_010_111110 = .ldr .r3 .r2 0b111110 := by decide
theorem test_decode_lea : decode 0b1110_101_011111111 = .lea .r5 0b011111111 := by decide
theorem test_decode_st : decode 0b0011_001_000000011 = .st .r1 0b000000011 := by decide
theorem test_decode_sti : decode 0b1011_010_111111101 = .sti .r2 0b111111101 := by decide
theorem test_decode_str : decode 0b0111_100_101_000010 = .str .r4 .r5 0b000010 := by decide
theorem test_decode_rti : decode 0b1000_000000000001 = .rti 1 := by decide
theorem test_decode_trap : decode 0b1111_0000_00100101 = .trap 0x25 := by decide
theorem test_decode_unknown : decode 0b1101_100000000000 = .unknown 0x800 := by decide

/-- R86: V6, V14, V91, and the ignored bits of AND, JMP and JSRR. -/
theorem test_decode_ignores_bits :
    decode 0x129B = decode 0x1283 ∧ decode 0x9240 = decode 0x927F ∧ decode 0xFF25 = decode 0xF025 ∧
    decode 0x529B = decode 0x5283 ∧ decode 0xCFFF = decode 0xC1C0 ∧ decode 0x47FF = decode 0x41C0 := by decide

/-- R82: every ignored bit is written 0. -/
theorem test_encode_words :
    encode (.addReg .r1 .r2 .r3) = 0x1283 ∧ encode (.not .r2 .r1) = 0x9440 ∧ encode (.jsr 0x400) = 0x4C00 ∧
    encode (.jmp .r7) = 0xC1C0 ∧ encode (.trap 0x22) = 0xF022 := by decide

/-- R80, R233: two bytes are one instruction, the high byte first; one byte is none. -/
theorem test_decode_bytes :
    decodeBytes [0xE0, 0x02, 0xF0] = .ok (.lea .r0 2, [0xF0]) ∧ decodeBytes [0xE0] = .error .truncated := ⟨rfl, rfl⟩

theorem test_decode_table_word :
    decodeTableWord 16 0xF025 = some (.trap 0x25) ∧ decodeTableWord 16 0x12A1 = some (.addImm .r1 .r2 1) ∧
    decodeTableWord 32 0xF025 = none := by decide

/-- R88: the document's own spellings and the two ends of an immediate. -/
theorem test_assembly :
    assembly (.lea .r0 2) = "LEA R0, #2" ∧ assembly (.addImm .r1 .r2 0b10000) = "ADD R1, R2, #-16" ∧
    assembly (.trap 0x2A) = "TRAP 0x2A" ∧ assembly (.br 0b101 0x1FF) = "BRnp #-1" := by decide

/-! WellFormed: an image that each check refuses, and the ends of R83's ranges. -/

theorem test_image_without_address : imageHasAddress [0x30] = false ∧ imageWellFormed [0x30] = false := by decide
theorem test_image_with_half_word :
    imageHasWholeWords [0x30, 0x00, 0xF0] = false ∧ imageWellFormed [0x30, 0x00, 0xF0] = false := by decide
theorem test_image_past_the_end :
    imageFits [0xFF, 0xFF, 0xF0, 0x25, 0xF0, 0x25] = false ∧ imageWellFormed [0xFF, 0xFF, 0xF0, 0x25, 0xF0, 0x25] = false := by
  decide
theorem test_image_at_the_end : imageWellFormed [0xFF, 0xFF, 0xF0, 0x25] = true ∧ imageWellFormed [0x30, 0x00] = true := by decide
theorem test_field_ranges :
    fieldInRange (0b10000 : BitVec 5) (-16) 15 = true ∧ fieldInRange (0b01111 : BitVec 5) (-16) 15 = true ∧
    fieldInRange (0b10000 : BitVec 5) (-15) 15 = false ∧ fieldInRange (0b01111 : BitVec 5) (-16) 14 = false := by decide
theorem test_wellFormed_ends :
    (Instr.ldr .r0 .r1 0b100000).wellFormed = true ∧ (Instr.br 7 0b011111111).wellFormed = true ∧
    (Instr.jsr 0b10000000000).wellFormed = true := by decide

/-! Words and memory. -/

/-- W6. -/
theorem test_sext :
    sext (0b10000 : BitVec 5) = 0xFFF0 ∧ sext (0b01111 : BitVec 5) = 0x000F ∧ sext (0b111111 : BitVec 6) = 0xFFFF ∧
    sext (0x100 : BitVec 9) = 0xFF00 ∧ sext (0x400 : BitVec 11) = 0xFC00 ∧ sext (1 : BitVec 1) = 0xFFFF ∧
    sext (0x8001 : BitVec 16) = 0x8001 := by decide

/-- W5. -/
theorem test_cc_of_values :
    ccOf 0x0000 = 0b010 ∧ ccOf 0x8000 = 0b100 ∧ ccOf 0xFFFF = 0b100 ∧ ccOf 0x0001 = 0b001 ∧ ccOf 0x7FFF = 0b001 := by decide

/-- The canonical form: an entry goes when its byte reads as unlisted again, and the order is by address. -/
theorem test_memory_canonical :
    (((Memory.mk []).write 0x4000 0x0012).write 0x3000 0x3400).cells = [(0x6000, 0x34), (0x8001, 0x12)] ∧
    ((Memory.mk []).write 0x4000 0x0012).write 0x4000 0 = Memory.mk [] ∧
    (Memory.mk [(2, 1), (1, 1)]).wf = false ∧ (Memory.mk [(1, 0)]).wf = false ∧ (Memory.mk [(0x20000, 1)]).wf = false := by decide

/-- R233: P1's first word, at its load address; `pc` stays 0x3000 (R234). -/
theorem test_boot :
    (boot [0x40, 0x00, 0xE0, 0x02]).toOption.map (fun t => (t.mem.read 0x4000, t.pc)) = some (0xE002, 0x3000) := by decide

theorem test_boot_refuses : (boot [0x40]).toOption.isSome = false := by decide

/-! Operate. -/

/-- W1. -/
theorem test_add_imm_wraps :
    after (step ((start 0x12A1).setReg .r2 0xFFFF)) (fun t => (t.reg .r1, t.cc, t.pc)) = some (0x0000, 0b010, 0x3001) := by decide
/-- V4. -/
theorem test_add_imm_signed_overflow :
    after (step ((start 0x12AF).setReg .r2 0x7FFF)) (fun t => (t.reg .r1, t.cc)) = some (0x800E, 0b100) := by decide
/-- V1. -/
theorem test_add_reg : after (step (((start 0x1283).setReg .r2 5).setReg .r3 7)) (fun t => (t.reg .r1, t.cc)) = some (0x000C, 0b001) := by
  decide
/-- V5. -/
theorem test_add_same_register :
    after (step ((start 0x1241).setReg .r1 0x4000)) (fun t => (t.reg .r1, t.cc)) = some (0x8000, 0b100) := by decide
/-- V7. -/
theorem test_and_reg :
    after (step (((start 0x5283).setReg .r2 0xF0F0).setReg .r3 0x0FF0)) (fun t => (t.reg .r1, t.cc)) = some (0x00F0, 0b001) := by
  decide
/-- V10. -/
theorem test_and_imm_extends :
    after (step ((start 0x58F0).setReg .r3 0x8F0F)) (fun t => (t.reg .r4, t.cc)) = some (0x8F00, 0b100) := by decide
/-- V11. -/
theorem test_not : after (step ((start 0x947F).setReg .r1 0x00FF)) (fun t => (t.reg .r2, t.cc)) = some (0xFF00, 0b100) := by decide
/-- V13. -/
theorem test_not_same_register : after (step (start 0x94BF)) (fun t => (t.reg .r2, t.cc)) = some (0xFFFF, 0b100) := by decide

/-! Control transfer. -/

/-- V20, V21: W4's taken and untaken branch. -/
theorem test_br_taken_and_not :
    after (step (flags 0b010 (start 0x0405))) (·.pc) = some 0x3006 ∧ after (step (flags 0b001 (start 0x0405))) (·.pc) = some 0x3001 := by
  decide
/-- V22, V26. -/
theorem test_br_backward_and_wrap :
    after (step (flags 0b100 (start 0x0F00))) (·.pc) = some 0x2F01 ∧
    after (step (flags 0b001 (startAt 0xFFFF 0x03FF))) (·.pc) = some 0xFFFF := by decide
/-- V28, V29. -/
theorem test_jmp :
    after (step ((start 0xC0C0).setReg .r3 0x1234)) (·.pc) = some 0x1234 ∧
    after (step ((startAt 0x3010 0xC1C0).setReg .r7 0x3002)) (·.pc) = some 0x3002 := by decide
/-- V30, V32. -/
theorem test_jsr :
    after (step (start 0x4810)) (fun t => (t.reg .r7, t.pc)) = some (0x3001, 0x3011) ∧
    after (step (startAt 0x0100 0x4C00)) (fun t => (t.reg .r7, t.pc)) = some (0x0101, 0xFD01) := by decide
/-- V33. -/
theorem test_jsrr : after (step ((start 0x40C0).setReg .r3 0x4000)) (fun t => (t.reg .r7, t.pc)) = some (0x3001, 0x4000) := by decide
/-- V34. -/
theorem test_jsrr_r7 : after (step ((start 0x41C0).setReg .r7 0x5000)) (fun t => (t.reg .r7, t.pc)) = some (0x3001, 0x3001) := by decide

/-! Loads. -/

/-- V40. -/
theorem test_ld : after (step ((start 0x2204).store 0x3005 0x1234)) (fun t => (t.reg .r1, t.cc)) = some (0x1234, 0b001) := by decide
/-- V42. -/
theorem test_ld_status : after (step (startAt 0xFDFF 0x2200)) (·.reg .r1) = some Config.kbsrReady := rfl
/-- V43 to V46: what the host answers and what LD loads. -/
theorem test_ld_data :
    after (step (heard [.byte 0x0D] (startAt 0xFE01 0x2200))) (fun t => (t.reg .r1, t.cc, t.pc)) = some (0x000A, 0b001, 0xFE02) ∧
    after (step (heard [.byte 0xFF] (startAt 0xFE01 0x2200))) (fun t => (t.reg .r1, t.cc)) = some (0x00FF, 0b001) ∧
    after (step (heard [.byte 0x00] (startAt 0xFE01 0x2200))) (fun t => (t.reg .r1, t.cc)) = some (0x0000, 0b010) := by decide
/-- V47, V48, and an INPUT request the host has not answered, where the fetch increment does not show yet (R33, R91). -/
theorem test_ld_data_stops :
    stop (step (heard [.byte 0x03] (startAt 0xFE01 0x2200))) = some (.inputCancelled 0xFE02 []) ∧
    stop (step (heard [.fail] (startAt 0xFE01 0x2200))) = some (.ioFailure .input []) ∧
    after (step (startAt 0xFE01 0x2200)) (fun t => (t.wait, t.pc)) = some (some (.load .r1), 0xFE01) := by decide
/-- V50. -/
theorem test_ldi :
    after (step (((start 0xA403).store 0x3004 0x4000).store 0x4000 0xBEEF)) (fun t => (t.reg .r2, t.cc)) = some (0xBEEF, 0b100) := by
  decide
/-- V51. -/
theorem test_ldi_data :
    after (step (heard [.byte 0x71] ((start 0xA003).store 0x3004 0xFE02))) (fun t => (t.reg .r0, t.cc)) = some (0x0071, 0b001) := by
  decide
/-- V54. -/
theorem test_ldr_base_is_destination :
    after (step (((start 0x6481).setReg .r2 0x4000).store 0x4001 0x7777)) (fun t => (t.reg .r2, t.cc)) = some (0x7777, 0b001) := by
  decide
/-- V55. -/
theorem test_ldr_wraps : after (step ((start 0x66BF).store 0xFFFF 0x8000)) (fun t => (t.reg .r3, t.cc)) = some (0x8000, 0b100) := by
  decide
/-- V58, V59. -/
theorem test_lea_wraps :
    after (step (startAt 0 0xEB00)) (fun t => (t.reg .r5, t.cc)) = some (0xFF01, 0b100) ∧
    after (step (startAt 0 0xEBFF)) (fun t => (t.reg .r5, t.cc)) = some (0x0000, 0b010) := by decide

/-! Stores. -/

/-- V70. -/
theorem test_st : after (step ((start 0x3203).setReg .r1 0xABCD)) (fun t => (t.mem.read 0x3004, t.cc)) = some (0xABCD, 0b000) := by decide
/-- V71: the word is stored under the status address. -/
theorem test_st_under_device :
    after (step ((startAt 0xFDFF 0x3200).setReg .r1 0x1234)) (·.mem.read 0xFE00) = some 0x1234 ∧
    after (step ((startAt 0xFDFF 0x3200).setReg .r1 0x1234)) (fun t => memRead 0xFE00 t = .value Config.kbsrReady t) = some True :=
  ⟨by decide, congrArg some (eq_true rfl)⟩
/-- V72. -/
theorem test_sti :
    after (step (((startAt 0x3010 0xB5FD).setReg .r2 0x0042).store 0x300E 0x5000)) (·.mem.read 0x5000) = some 0x0042 := by decide
/-- V73. -/
theorem test_sti_pointer_is_input :
    after (step (heard [.byte 0x41] ((startAt 0xFE01 0xB400).setReg .r2 0x0042))) (·.mem.read 0x0041) = some 0x0042 := by decide
/-- V74. -/
theorem test_str : after (step (((start 0x7942).setReg .r4 7).setReg .r5 0x4000)) (·.mem.read 0x4002) = some 7 := by decide
/-- V75. -/
theorem test_str_source_is_base : after (step ((start 0x7B60).setReg .r5 0x4000)) (·.mem.read 0x3FE0) = some 0x4000 := by decide

/-! System. -/

/-- V80, V81, with the recorded word of R200. -/
theorem test_rti_aborts :
    stop (step (start 0x8000)) = some (.unsupportedInstruction 0x8000 []) ∧
    stop (step (start 0x8FFF)) = some (.unsupportedInstruction 0x8FFF []) := by decide
/-- V82, without its condition codes. -/
theorem test_getc : ∃ t, exec (.trap 0x20) (start 0) = .next t ∧ t.reg .r7 = 0x3000 := by
  refine ⟨_, rfl, ?_⟩
  cases Config.getcSetsCc <;> rfl
/-- W9, V83. -/
theorem test_out :
    after (step ((start 0xF021).setReg .r0 0x1241)) (fun t => (t.output, t.reg .r7, t.reg .r0)) =
      some ([.char 0x41], 0x3001, 0x1241) := by decide
theorem test_out_fails : stop (step (room 0 (start 0xF021))) = some (.ioFailure .output []) := by decide
/-- V84, V86: one with high bits set, one with a low byte of 0. -/
theorem test_puts :
    after (step ((((start 0xF022).setReg .r0 0x4000).store 0x4000 0x0100).store 0x4001 0x0069)) (fun t => (t.output, t.reg .r7)) =
      some ([.char 0x00, .char 0x69], 0x3001) := by decide
/-- V88: the string takes an input byte; and the wait where the host has not answered, with the first character emitted and the
link not visible (R33). -/
theorem test_puts_input :
    after (step (heard [.byte 0x0D] (((start 0xF022).setReg .r0 0xFE01).store 0xFE01 0x0041))) (fun t => (t.output, t.wait)) =
      some ([.char 0x41, .char 0x0A], none) ∧
    after (step (((start 0xF022).setReg .r0 0xFE01).store 0xFE01 0x0041)) (fun t => (t.output, t.wait, t.reg .r7, t.pc)) =
      some ([.char 0x41], some .string, 0x0000, 0x3000) := by decide
/-- V90. -/
theorem test_halt :
    after (step (start 0xF025)) (fun t => (t.output, t.reg .r7, t.pc, t.status)) = some ([.haltNotice], 0x3001, 0x3001, .halted) := by
  decide
/-- V92. -/
theorem test_other_vector : after (step (start 0xF023)) (fun t => (t.output, t.reg .r7, t.pc)) = some ([], 0x3001, 0x3001) := by decide
/-- V93, V94, with the recorded word of R200. -/
theorem test_unknown_opcode :
    after (step (start 0xDFFF)) (fun t => (t.output, t.reg .r7, t.pc, t.status)) =
      some ([.diagnostic (.unknownOpcode 0xDFFF)], 0x0000, 0x3001, .halted) := by decide

/-! The cycle. -/

/-- V100. -/
theorem test_fetch_wraps : after (step (startAt 0xFFFF 0)) (·.pc) = some 0 := by decide
/-- V101, V102. -/
theorem test_fetch_input :
    after (step (heard [.byte 0x25] (startAt 0xFE02 0))) (·.pc) = some 0xFE03 ∧
    stop (step (heard [.byte 0x03] (startAt 0xFE02 0))) = some (.inputCancelled 0xFE02 []) := by decide
/-- V104, its first step. -/
theorem test_self_modifying : after (step ((start 0x3200).setReg .r1 0x1283)) (·.mem.read 0x3001) = some 0x1283 := by decide
/-- V105. -/
theorem test_halted_takes_no_step : step (start 0xF025).halt = .next (start 0xF025).halt := rfl
/-- R91: the answer given while the engine is blocked in an LD (V44), and in a TRAP 0x22 that then ends at the byte 0. -/
theorem test_answer_resumes :
    after (step (((startAt 0xFE01 0x2200).waitAt (.load .r1)).answer (.byte 0x41)))
      (fun t => (t.reg .r1, t.pc, t.wait, t.input)) = some (0x0041, 0xFE02, none, []) ∧
    after (step (((start 0xF022).waitAt .string).answer (.byte 0x00))) (fun t => (t.reg .r7, t.pc, t.wait, t.output)) =
      some (0x3001, 0x3001, none, []) := by decide
/-- From reset, with one word placed. -/
theorem test_placed_word_runs :
    after (step (State.reset.withFetchWord 16 0xF025)) (fun t => (t.output, t.reg .r7)) = some ([.haltNotice], 0x3001) := by decide

/-! Witnesses: for each obligation with hypotheses, values that meet them, one for each clause; the addresses are the two device
addresses and their neighbours. -/

/-- An engine whose current PC is 0xFE01, next to both device addresses, with the host's answers. -/
def nearDevices (l : List InputAnswer) : State := heard l (startAt 0xFE01 0)

theorem witness_SignExtensionKeepsTheSignedValue :
    (1 ≤ 1 ∧ 1 ≤ 16 ∧ (1 : BitVec 1).getLsbD (1 - 1) = true ∧ (0 : BitVec 1).getLsbD (1 - 1) = false) ∧
    (1 ≤ 16 ∧ 16 ≤ 16 ∧ (0x8000 : BitVec 16).getLsbD (16 - 1) = true ∧ (0x7FFF : BitVec 16).getLsbD (16 - 1) = false) := by
  decide

theorem witness_DecodeEncodeGivesTheInstructionBack :
    (Instr.addImm .r7 .r0 0b10000).wellFormed = true ∧ (Instr.jsr 0b01111111111).wellFormed = true := by decide

theorem witness_IgnoredBitsHaveNoEffect :
    (0x1283 : Word) &&& significantBits 0x1283 = 0x129B &&& significantBits 0x129B ∧
    (0xFF25 : Word) &&& significantBits 0xFF25 = 0xF025 &&& significantBits 0xF025 := by decide

theorem witness_StepRunsTheDecodedInstruction :
    (start 0xE002).Ready ∧ Ordinary (start 0xE002).pc ∧ decode ((start 0xE002).mem.read (start 0xE002).pc) = .lea .r0 2 ∧
    (Instr.lea .r0 2).wellFormed = true ∧
    (startAt 0xFE01 0xC1C0).Ready ∧ Ordinary (startAt 0xFE01 0xC1C0).pc ∧
    decode ((startAt 0xFE01 0xC1C0).mem.read (startAt 0xFE01 0xC1C0).pc) = .jmp .r7 := by decide

theorem witness_FetchAtDeviceAddresses :
    ((startAt 0xFE00 0).Ready ∧ (startAt 0xFE00 0).pc = 0xFE00) ∧
    ((heard [.byte 0x04] (startAt 0xFE02 0)).Ready ∧ (heard [.byte 0x04] (startAt 0xFE02 0)).pc = 0xFE02 ∧
      (heard [.byte 0x04] (startAt 0xFE02 0)).input = .byte 0x04 :: [] ∧ (0x04 : Byte) ≠ 0x03) ∧
    ((heard [.byte 0x03] (startAt 0xFE02 0)).Ready ∧ (heard [.byte 0x03] (startAt 0xFE02 0)).pc = 0xFE02 ∧
      (heard [.byte 0x03] (startAt 0xFE02 0)).input = .byte 0x03 :: []) ∧
    ((heard [.fail] (startAt 0xFE02 0)).Ready ∧ (heard [.fail] (startAt 0xFE02 0)).pc = 0xFE02 ∧
      (heard [.fail] (startAt 0xFE02 0)).input = .fail :: []) ∧
    ((startAt 0xFE02 0).Ready ∧ (startAt 0xFE02 0).pc = 0xFE02 ∧ (startAt 0xFE02 0).input = []) := by decide

theorem witness_HaltedEngineStaysAsItIs : (start 0).halt.halted = true := by decide

theorem witness_UnansweredRequestBlocksTheEngine :
    ((start 0).waitAt .string).halted = false ∧ ((start 0).waitAt .string).wait = some .string ∧
    ((start 0).waitAt .string).input = [] := by decide

/-- A load, an indirect store and a string come to wait; the answer is any. -/
theorem witness_WaitingIsTransparent :
    (startAt 0xFE01 0x2200).halted = false ∧ (start 0xF022).halted = false ∧
    after (step (startAt 0xFE01 0x2200)) (fun t => t.wait ≠ none) = some True ∧
    after (step (startAt 0xFE01 0xB400)) (·.wait) = some (some (.storePointer .r2)) ∧
    after (step ((start 0xF022).setReg .r0 0xFE02)) (·.wait) = some (some .string) := by
  refine ⟨by decide, by decide, congrArg some (eq_true ?_), by decide, by decide⟩
  decide

theorem witness_BlockedInstructionShowsNothing :
    after (step (startAt 0xFE01 0x2200)) (·.wait) = some (some (.load .r1)) ∧
    ((start 0).waitAt .string).wait = some .string ∧ (start 0).wait = none := by decide

theorem witness_StoreToTheNextInstructionIsExecuted :
    (start 0x3200).Ready ∧ Ordinary (start 0x3200).pc ∧ Ordinary ((start 0x3200).pc + 1) ∧
    decode ((start 0x3200).mem.read (start 0x3200).pc) = .st .r1 0 := by decide

theorem witness_PlacedWordIsExecutedNext : 16 ≤ 16 ∧ 0 ≤ 16 ∧ Ordinary (start 0).pc ∧ Ordinary (startAt 0xFE03 0).pc := by decide

theorem witness_ReadGivesTheLastWrite :
    (Ordinary 0xFE01 ∧ ∀ w ∈ [((0xFE00 : Word), (5 : Word)), (0xFE02, 6)], w.1 ≠ 0xFE01) ∧ Ordinary 0 ∧ Ordinary 0xFFFF :=
  ⟨⟨by decide, by simp⟩, by decide, by decide⟩

theorem witness_OrdinaryReadGivesTheStoredWord : (0xFDFF : Word) ≠ 0xFE00 ∧ (0xFE03 : Word) ≠ 0xFE02 ∧
    (0xFE01 : Word) ≠ 0xFE00 ∧ (0xFE01 : Word) ≠ 0xFE02 := by decide

theorem witness_DataReadTakesOneAnswer :
    ((nearDevices [.byte 0x04]).input = .byte 0x04 :: [] ∧ (0x04 : Byte) ≠ 0x03) ∧
    (nearDevices [.byte 0x03]).input = .byte 0x03 :: [] ∧ (nearDevices [.fail]).input = .fail :: [] ∧
    (nearDevices []).input = [] := by decide

/-- The same two words, written in either order. -/
theorem witness_MemoriesThatReadAlikeAreEqual :
    (((Memory.mk []).write 1 2).write 3 4).wf = true ∧ (((Memory.mk []).write 3 4).write 1 2).wf = true ∧
    ∀ a, (((Memory.mk []).write 1 2).write 3 4).read a = (((Memory.mk []).write 3 4).write 1 2).read a :=
  ⟨by decide, by decide, fun a => by
    simp only [Memory.read_write]
    by_cases h : a = 3
    · subst h; rfl
    · rw [if_neg h, if_neg h]⟩

/-- The words of the decoding clauses of the instructions' statements. -/
theorem witness_decoding_clauses :
    ((0x1000 : Word).extractLsb' 12 4 = 0x1 ∧ (0x1000 : Word).getLsbD 5 = false ∧ (0x1FFF : Word).getLsbD 5 = true) ∧
    ((0x5000 : Word).extractLsb' 12 4 = 0x5 ∧ (0x5000 : Word).getLsbD 5 = false ∧ (0x5FFF : Word).getLsbD 5 = true) ∧
    ((0x4000 : Word).extractLsb' 12 4 = 0x4 ∧ (0x4000 : Word).getLsbD 11 = false ∧ (0x4FFF : Word).getLsbD 11 = true) ∧
    (0x0FFF : Word).extractLsb' 12 4 = 0x0 ∧ (0x9000 : Word).extractLsb' 12 4 = 0x9 ∧ (0xC000 : Word).extractLsb' 12 4 = 0xC ∧
    (0x2FFF : Word).extractLsb' 12 4 = 0x2 ∧ (0xA000 : Word).extractLsb' 12 4 = 0xA ∧ (0x6000 : Word).extractLsb' 12 4 = 0x6 ∧
    (0xE000 : Word).extractLsb' 12 4 = 0xE ∧ (0x3000 : Word).extractLsb' 12 4 = 0x3 ∧ (0xB000 : Word).extractLsb' 12 4 = 0xB ∧
    (0x7FFF : Word).extractLsb' 12 4 = 0x7 ∧ (0x8000 : Word).extractLsb' 12 4 = 0x8 ∧ (0xF000 : Word).extractLsb' 12 4 = 0xF ∧
    (0xDFFF : Word).extractLsb' 12 4 = 0xD := by decide

theorem witness_LdLoadsPcRelative :
    (Ordinary ((nearDevices []).pc + sext (0 : BitVec 9)) ∧ Ordinary ((nearDevices []).pc + sext (0x100 : BitVec 9))) ∧
    (nearDevices []).pc + sext (0x1FF : BitVec 9) = 0xFE00 ∧ (nearDevices []).pc + sext (1 : BitVec 9) = 0xFE02 ∧
    ((nearDevices [.byte 0x0D]).input = .byte 0x0D :: [] ∧ (0x0D : Byte) ≠ 0x03) ∧
    (nearDevices [.byte 0x03]).input = .byte 0x03 :: [] ∧ (nearDevices [.fail]).input = .fail :: [] ∧
    (nearDevices []).input = [] := by decide

/-- The pointer is read at an ordinary address; it is ordinary, then each device address; then it is read at each. Which kind of
address `kbsr_ready` is, the spec leaves open. -/
theorem witness_LdiLoadsThroughThePointer :
    (Ordinary ((nearDevices []).pc + sext (2 : BitVec 9)) ∧
      Ordinary (((nearDevices []).store 0xFE03 0xFE01).mem.read ((nearDevices []).pc + sext (2 : BitVec 9))) ∧
      ((nearDevices []).store 0xFE03 0xFE00).mem.read ((nearDevices []).pc + sext (2 : BitVec 9)) = 0xFE00 ∧
      ((nearDevices []).store 0xFE03 0xFE02).mem.read ((nearDevices []).pc + sext (2 : BitVec 9)) = 0xFE02) ∧
    (nearDevices []).pc + sext (0x1FF : BitVec 9) = 0xFE00 ∧ (nearDevices []).pc + sext (1 : BitVec 9) = 0xFE02 ∧
    ((nearDevices [.byte 0x04]).store 0xFE03 0xFE02).input = .byte 0x04 :: [] ∧ (0x04 : Byte) ≠ 0x03 ∧
    ((nearDevices [.byte 0x03]).store 0xFE03 0xFE02).input = .byte 0x03 :: [] ∧
    ((nearDevices [.fail]).store 0xFE03 0xFE02).input = .fail :: [] ∧ ((nearDevices []).store 0xFE03 0xFE02).input = [] := by decide

/-- The base is R1 at each end of the offset's range. -/
theorem witness_LdrLoadsBaseRelative :
    Ordinary (((nearDevices []).setReg .r1 0xFE21).reg .r1 + sext (0b100000 : BitVec 6)) ∧
    ((nearDevices []).setReg .r1 0xFE20).reg .r1 + sext (0b100000 : BitVec 6) = 0xFE00 ∧
    ((nearDevices []).setReg .r1 0xFDE3).reg .r1 + sext (0b011111 : BitVec 6) = 0xFE02 ∧
    (((nearDevices [.byte 0x0D]).setReg .r1 0xFDE3).input = .byte 0x0D :: [] ∧ (0x0D : Byte) ≠ 0x03) ∧
    ((nearDevices [.byte 0x03]).setReg .r1 0xFDE3).input = .byte 0x03 :: [] ∧
    ((nearDevices [.fail]).setReg .r1 0xFDE3).input = .fail :: [] ∧ ((nearDevices []).setReg .r1 0xFDE3).input = [] := by decide

theorem witness_StiStoresThroughThePointer :
    Ordinary ((nearDevices []).pc + sext (0 : BitVec 9)) ∧
    (nearDevices []).pc + sext (0x1FF : BitVec 9) = 0xFE00 ∧ (nearDevices []).pc + sext (1 : BitVec 9) = 0xFE02 ∧
    ((nearDevices [.byte 0x0D]).input = .byte 0x0D :: [] ∧ (0x0D : Byte) ≠ 0x03) ∧
    (nearDevices [.byte 0x03]).input = .byte 0x03 :: [] ∧ (nearDevices [.fail]).input = .fail :: [] ∧
    (nearDevices []).input = [] := by decide

/-- A TRAP that goes on, for a native vector and for another. -/
theorem witness_TrapLinksAndStaysInLine :
    (∃ t, exec (.trap 0x25) (start 0) = .next t) ∧
    ∃ t, exec (.trap 0xFF) (start 0) = .next t ∧ (Reg.r0 = .r0 → (0xFF : BitVec 8) ≠ 0x20) :=
  ⟨⟨_, rfl⟩, ⟨_, rfl, by decide⟩⟩

/-- A host that accepts one event or all, and one that accepts none: the two clauses of OUT, HALT and the unknown opcode. -/
theorem witness_HostAccepts :
    (start 0).HostAccepts ∧ (room 1 (start 0)).HostAccepts ∧ (room 0 (start 0)).outputRoom = some 0 := by decide

/-- A string of two words next to 0xFE00, for a host that accepts just these two; and the empty string. -/
theorem witness_PutsEmitsTheString :
    let s := room 2 ((((start 0).setReg .r0 0xFDFD).store 0xFDFD 0x0148).store 0xFDFE 0x0069)
    let ws : List Word := [0x0148, 0x0069]
    (∀ n, s.outputRoom = some n → ws.length ≤ n) ∧ (∀ w ∈ ws, w ≠ 0) ∧
    (∀ k ≤ ws.length, Ordinary (s.reg .r0 + BitVec.ofNat 16 k)) ∧
    (∀ k (h : k < ws.length), s.mem.read (s.reg .r0 + BitVec.ofNat 16 k) = ws[k]) ∧
    s.mem.read (s.reg .r0 + BitVec.ofNat 16 ws.length) = 0 := by
  refine ⟨fun n h => ?_, by simp, by decide, fun k h => ?_, by decide⟩
  · cases h
    decide
  · match k, h with
    | 0, _ => show _ = (0x0148 : Word); decide
    | 1, _ => show _ = (0x0069 : Word); decide

theorem witness_PutsEmitsTheString_empty :
    let s := room 0 ((start 0).setReg .r0 0xFFFF)
    (∀ n, s.outputRoom = some n → ([] : List Word).length ≤ n) ∧ Ordinary (s.reg .r0) ∧ s.mem.read (s.reg .r0) = 0 :=
  ⟨fun n _ => Nat.zero_le n, by decide, by decide⟩

theorem witness_OtherVectorsOnlyLink :
    ((0x1F : BitVec 8) ≠ 0x20 ∧ (0x1F : BitVec 8) ≠ 0x21 ∧ (0x1F : BitVec 8) ≠ 0x22 ∧ (0x1F : BitVec 8) ≠ 0x25) ∧
    ((0x23 : BitVec 8) ≠ 0x22 ∧ (0x24 : BitVec 8) ≠ 0x25 ∧ (0x26 : BitVec 8) ≠ 0x25) := by decide

/-- A fault of each kind; TRAP 0x22's two are a string that passes 0xFE02 after one word, and one whose second word fails. -/
theorem witness_FaultsAreThoseOfTheTable :
    (∃ f, exec (.ld .r1 1) (nearDevices [.byte 0x03]) = .fault f) ∧
    (∃ f, exec (.ldi .r1 2) ((nearDevices [.fail]).store 0xFE03 0xFE02) = .fault f) ∧
    (∃ f, exec (.rti 0) (start 0) = .fault f) ∧
    stop (exec (.trap 0x22) (heard [.byte 0x03] (((start 0).setReg .r0 0xFE01).store 0xFE01 0x0141))) =
      some (.inputCancelled 0xFE02 [.char 0x41]) ∧
    stop (exec (.trap 0x22) (room 1 (((start 7).setReg .r0 0x3000).store 0x3001 8))) = some (.ioFailure .output [.char 7]) ∧
    (∃ f, exec (.unknown 0) (room 0 (start 0)) = .fault f) :=
  ⟨⟨_, rfl⟩, ⟨_, rfl⟩, ⟨_, rfl⟩, by decide, by decide, ⟨_, rfl⟩⟩

theorem witness_OnlyTheListedInstructionsWriteCc :
    (∃ t, exec (.st .r1 3) (start 0) = .next t) ∧ mayWriteCc (.st .r1 3) = false ∧
    (∃ t, exec (.jsr 3) (start 0) = .next t) ∧ mayWriteCc (.jsr 3) = false := ⟨⟨_, rfl⟩, rfl, ⟨_, rfl⟩, rfl⟩

theorem witness_OnlyDestinationsAreWritten :
    (∃ t, exec (.addReg .r1 .r2 .r3) (start 0) = .next t) ∧ Reg.r2 ∉ destinations (.addReg .r1 .r2 .r3) ∧
    (∃ t, exec (.trap 0x20) (start 0) = .next t) ∧ Reg.r1 ∉ destinations (.trap 0x20) :=
  ⟨⟨_, rfl⟩, by decide, ⟨_, rfl⟩, by decide⟩

theorem witness_OnlyTransfersWritePc :
    (∃ t, exec (.trap 0x25) (start 0) = .next t) ∧ mayWritePc (.trap 0x25) = false := ⟨⟨_, rfl⟩, rfl⟩

/-- An instruction that stores nothing, and STI through a pointer. -/
theorem witness_OnlyStoresWriteMemory :
    (∃ t, exec (.jmp .r1) (start 0) = .next t) ∧ storeAddress (.jmp .r1) (start 0) = none ∧
    (∃ t, exec (.sti .r1 0) (start 0x5000) = .next t) ∧ storeAddress (.sti .r1 0) (start 0x5000) = some 0x5000 :=
  ⟨⟨_, rfl⟩, rfl, ⟨_, rfl⟩, by decide⟩

theorem witness_OnlyHaltAndUnknownOpcodeHalt :
    (∃ t, exec (.unknown 0) (start 0) = .next t) ∧ ∃ t, exec (.trap 0x26) (start 0) = .next t := ⟨⟨_, rfl⟩, ⟨_, rfl⟩⟩

theorem witness_OutputHistoryOnlyGrows :
    (∃ t, step (start 0xF025) = .next t) ∧ ∃ f, step (start 0x8000) = .fault f := ⟨⟨_, rfl⟩, ⟨_, rfl⟩⟩

theorem witness_InputIsTakenInOrder :
    ∃ t, step (heard [.byte 1, .fail] (startAt 0xFE01 0x2200)) = .next t ∧ t.input = [.fail] := ⟨_, rfl, by decide⟩

/-- The invariant in a state that waits in its fetch, and in one that halts. -/
theorem witness_StepKeepsTheInvariant :
    (((startAt 0xFE02 0).waitAt .fetch).Inv ∧ ∃ t, step ((startAt 0xFE02 0).waitAt .fetch) = .next t) ∧
    ((start 0xF025).Inv ∧ ∃ t, step (start 0xF025) = .next t ∧ t.halted = true) := by
  refine ⟨⟨⟨by decide, fun h => ?_, fun _ => by decide⟩, ⟨_, rfl⟩⟩, ⟨by decide, fun _ => rfl, fun h => ?_⟩, ⟨_, rfl, by decide⟩⟩
  · cases h
  · cases h

theorem witness_StepKeepsExactlyOneFlag :
    ExactlyOneFlag (flags 0b100 (start 0x12A1)).cc ∧ ∃ t, step (flags 0b100 (start 0x12A1)) = .next t ∧ t.cc ≠ 0b100 :=
  ⟨by decide, ⟨_, rfl, by decide⟩⟩

/-- Words that end at the last address, and one word too many. -/
theorem witness_LoadCopiesItsWords :
    (0xFFFE : Word).toNat + [(1 : Word), 2].length ≤ 0x10000 ∧ (∀ k < 2, (0x0000 : Word) ≠ 0xFFFE + BitVec.ofNat 16 k) ∧
    0x10000 < (0xFFFE : Word).toNat + [(1 : Word), 2, 3].length := by decide

theorem witness_ImageIsLoadedBigEndian :
    (0xFF : Byte).toNat * 256 + (0xFF : Byte).toNat + [((0xF0 : Byte), (0x25 : Byte))].length ≤ 0x10000 ∧
    [(0x30 : Byte)].length < 2 ∧ [(0x30 : Byte), 0, 0].length % 2 = 1 ∧
    0x10000 < (0xFF : Byte).toNat * 256 + (0xFF : Byte).toNat + [((0xF0 : Byte), (0x25 : Byte)), (0, 0)].length ∧
    (∀ k < 1, (0xFFFE : Word) ≠ BitVec.ofNat 16 ((0xFF : Byte).toNat * 256 + (0xFF : Byte).toNat + k)) := by decide

end Sys2Proof.Tests
end

section
/-! The two extensions of R11, tied to the library's `BitVec.signExtend`. -/

namespace Sys2Proof.Machine

theorem sext_of_msb {n : Nat} {f : BitVec n} (h : f.msb = true) :
    sext f = f.setWidth 16 ||| (0xFFFF : Word) <<< n := if_pos h

theorem sext_of_msb_false {n : Nat} {f : BitVec n} (h : f.msb = false) : sext f = f.setWidth 16 :=
  if_neg (by simp [h])

/-- Below bit `n` the shifted mask is 0 and the field's own bits show; from bit `n` on the mask supplies copies of the top bit. -/
theorem sext_eq_signExtend {n : Nat} (f : BitVec n) : sext f = f.signExtend 16 := by
  cases h : f.msb with
  | false => rw [sext_of_msb_false h, BitVec.signExtend_eq_setWidth_of_msb_false h]
  | true =>
    rw [sext_of_msb h]
    ext k hk
    by_cases hkn : k < n
    · simp [BitVec.getElem_signExtend, hkn, BitVec.getLsbD_eq_getElem]
    · have mask_bit : (0xFFFF#16)[k - n] = true := BitVec.getElem_allOnes (k - n) (by omega)
      simp [BitVec.getElem_signExtend, hkn, h, mask_bit]

theorem toInt_sext {n : Nat} (f : BitVec n) (hn : n ≤ 16) : (sext f).toInt = f.toInt := by
  rw [sext_eq_signExtend, BitVec.toInt_signExtend_of_le hn]

end Sys2Proof.Machine

namespace Sys2Proof.Proofs

open Sys2Proof.Machine

/-- Settles O1: `sext` is the library's sign extension, and its two branches are the two cases of the top bit. -/
theorem signExtensionKeepsTheSignedValue : Obligations.SignExtensionKeepsTheSignedValue := by
  intro n f _ hn
  rw [← BitVec.msb_eq_getLsbD_last]
  exact ⟨toInt_sext f hn, sext_of_msb, sext_of_msb_false, BitVec.toNat_setWidth_of_le hn⟩

end Sys2Proof.Proofs
end

section
/-! What one instruction can change, once for every instruction, and what follows of it for a whole step. The updates of
the state come first, then the operations the instructions share, then `exec`, then the cycle and the step. -/

namespace Sys2Proof.Machine

/-! The condition codes. -/

/-- R26's three cases. -/
theorem ccOf_cases (v : Word) :
    (v = 0 ∧ ccOf v = 0b010) ∨ (v ≠ 0 ∧ v.getLsbD 15 = true ∧ ccOf v = 0b100) ∨
      (v ≠ 0 ∧ v.getLsbD 15 = false ∧ ccOf v = 0b001) := by
  by_cases h0 : v = 0
  · exact .inl ⟨h0, by simp [ccOf, h0]⟩
  · cases hn : v.getLsbD 15
    · exact .inr (.inr ⟨h0, rfl, by rw [ccOf, if_neg h0, hn]; rfl⟩)
    · exact .inr (.inl ⟨h0, rfl, by rw [ccOf, if_neg h0, hn]; rfl⟩)

theorem exactlyOneFlag_ccOf (v : Word) : ExactlyOneFlag (ccOf v) := by
  rcases ccOf_cases v with ⟨_, h⟩ | ⟨_, _, h⟩ | ⟨_, _, h⟩ <;> simp [ExactlyOneFlag, h]

/-! What an instruction can change. -/

/-- `t` can come of `s` inside an instruction, whichever it is: `cc` is kept or the flags of a value, a canonical memory
stays canonical, and the OUTPUT history grows. -/
structure Progress (s t : State) : Prop where
  flags : t.cc = s.cc ∨ ∃ v, t.cc = ccOf v
  canonical : s.mem.wf = true → t.mem.wf = true
  output : s.output <+: t.output

/-- `t` can come of `s` by an instruction that writes no register outside `dest`, writes `cc` and `pc` only where `writesCc`
and `writesPc` say so, and sets the halted flag exactly where `halts` does; it never comes to wait in a fetch. -/
structure Within (dest : List Reg) (writesCc writesPc halts : Bool) (s t : State) : Prop extends Progress s t where
  regs : ∀ q ∉ dest, t.reg q = s.reg q
  cc : writesCc = false → t.cc = s.cc
  pc : writesPc = false → t.pc = s.pc
  halted : t.halted = (s.halted || halts)
  waitsInFetch : t.wait = some .fetch → s.wait = some .fetch

theorem Progress.trans {s u t : State} (hsu : Progress s u) (hut : Progress u t) : Progress s t where
  flags := hut.flags.elim (fun h => h ▸ hsu.flags) .inr
  canonical := hut.canonical ∘ hsu.canonical
  output := hsu.output.trans hut.output

/-- Updates of the other fields are progress. -/
theorem Progress.of_kept {s t : State} (hcc : t.cc = s.cc) (hmem : t.mem = s.mem) (hout : t.output = s.output) :
    Progress s t :=
  ⟨.inl hcc, fun h => hmem ▸ h, hout ▸ List.prefix_rfl⟩

section
variable {dest : List Reg} {writesCc writesPc halts : Bool} {s t u : State}

theorem Within.trans (hsu : Within dest writesCc writesPc false s u) (hut : Within dest writesCc writesPc halts u t) :
    Within dest writesCc writesPc halts s t where
  toProgress := hsu.toProgress.trans hut.toProgress
  regs q hq := (hut.regs q hq).trans (hsu.regs q hq)
  cc h := (hut.cc h).trans (hsu.cc h)
  pc h := (hut.pc h).trans (hsu.pc h)
  halted := by rw [hut.halted, hsu.halted, Bool.or_false]
  waitsInFetch := hsu.waitsInFetch ∘ hut.waitsInFetch

/-! Each update of the state. -/

theorem Within.refl (s : State) : Within dest writesCc writesPc false s s :=
  ⟨.of_kept rfl rfl rfl, fun _ _ => rfl, fun _ => rfl, fun _ => rfl, (Bool.or_false _).symm, id⟩

theorem within_setReg {r : Reg} (hr : r ∈ dest) (v : Word) :
    Within dest writesCc writesPc false s (s.setReg r v) :=
  { Within.refl (dest := dest) s with regs := fun _ hq => s.reg_setReg_other v (ne_of_mem_of_not_mem hr hq).symm }

theorem within_setcc {r : Reg} (hr : r ∈ dest) (v : Word) : Within dest true writesPc false s (s.setcc r v) :=
  { within_setReg (writesCc := true) hr v with
    flags := .inr ⟨v, rfl⟩
    cc := nofun }

theorem within_setPc (v : Word) : Within dest writesCc true false s (s.setPc v) :=
  { Within.refl (writesPc := true) s with pc := nofun }

theorem within_store (a v : Word) : Within dest writesCc writesPc false s (s.store a v) :=
  { Within.refl s with canonical := Memory.wf_write a v }

theorem within_halt : Within dest writesCc writesPc true s s.halt :=
  { Within.refl s with halted := (Bool.or_true _).symm }

theorem within_waitAt {p : WaitPoint} (hp : p ≠ .fetch) : Within dest writesCc writesPc false s (s.waitAt p) :=
  { Within.refl s with waitsInFetch := fun h => absurd (Option.some.inj h) hp }

theorem within_emit (e : OutputEvent) (room : Option Nat) :
    Within dest writesCc writesPc false s { s with output := s.output ++ [e], outputRoom := room } :=
  { Within.refl s with output := List.prefix_append _ _ }

/-! Each shared operation. -/

/-- Whatever a read takes of the host's answers, everything else stays. -/
theorem memRead_changes_only_input {a v : Word} (h : memRead a s = .value v u) : ∃ rest, u = { s with input := rest } := by
  rcases memRead_value h with ⟨_, rfl⟩ | ⟨_, rest, _, _, _, _, rfl⟩
  · exact ⟨_, rfl⟩
  · exact ⟨rest, rfl⟩

theorem within_memRead {a v : Word} (h : memRead a s = .value v u) : Within dest writesCc writesPc false s u := by
  obtain ⟨rest, rfl⟩ := memRead_changes_only_input h
  exact { Within.refl s with }

theorem loadFrom_within {addr : Word} {a : Reg} (ha : a ∈ dest) (h : loadFrom addr a s = .next t) :
    Within dest true writesPc false s t := by
  rcases loadFrom_next h with ⟨v, u, hread, rfl⟩ | ⟨_, rfl⟩
  · exact (within_memRead hread).trans (within_setcc ha v)
  · exact within_waitAt nofun

theorem loadIndirectFrom_within {addr : Word} {a : Reg} (ha : a ∈ dest) (h : loadIndirectFrom addr a s = .next t) :
    Within dest true writesPc false s t := by
  rcases loadIndirectFrom_next h with ⟨p, u, hread, hload⟩ | ⟨_, rfl⟩
  · exact (within_memRead hread).trans (loadFrom_within ha hload)
  · exact within_waitAt nofun

theorem storeIndirectFrom_within {addr : Word} {a : Reg} (h : storeIndirectFrom addr a s = .next t) :
    Within dest writesCc writesPc false s t := by
  rcases storeIndirectFrom_next h with ⟨p, u, hread, rfl⟩ | ⟨_, rfl⟩
  · exact (within_memRead hread).trans (within_store p _)
  · exact within_waitAt nofun

theorem printFrom_within {a : Word} (h : printFrom a s = .next t) : Within dest writesCc writesPc false s t := by
  obtain ⟨hregs, hpc, hcc, hhalted, hmem, hwait, hout, _⟩ := printFrom_next h
  exact {
    flags := .inl hcc
    canonical := fun hm => hmem ▸ hm
    output := hout
    regs := fun q _ => congrArg (Regs.get · q) hregs
    cc := fun _ => hcc
    pc := fun _ => hpc
    halted := by rw [hhalted, Bool.or_false]
    waitsInFetch := fun hf => hwait.elim (fun hw => hw ▸ hf) (fun hw => nomatch hw.symm.trans hf) }

/-- An operation that ends in an OUTPUT event, with what it does once the host has accepted it. -/
theorem outputThen_within {e : OutputEvent} {k : State → Result} (h : outputThen e s k = .next t)
    (hk : ∀ u, k u = .next t → Within dest writesCc writesPc halts u t) : Within dest writesCc writesPc halts s t := by
  obtain ⟨room, hnext⟩ := outputThen_next h
  exact (within_emit e room).trans (hk _ hnext)

theorem outputThen_halt_within {e : OutputEvent} (h : (outputThen e s fun u => .next u.halt) = .next t) :
    Within dest writesCc writesPc true s t :=
  outputThen_within h fun u hu => by cases hu; exact within_halt

end

/-! Each instruction. -/

/-- The instructions that set the halted flag (R29): TRAP 0x25 and the unknown opcode. -/
def setsHalted : Instr → Bool
  | .trap v => v == 0x25
  | .unknown _ => true
  | _ => false

theorem setsHalted_iff (i : Instr) : setsHalted i = true ↔ i = .trap 0x25 ∨ ∃ x, i = .unknown x := by
  cases i <;> simp [setsHalted]

/-- TRAP by its vector; the link comes first for each of them (R151). -/
theorem execTrap_within {v : BitVec 8} {s t : State} (h : execTrap v s = .next t) :
    Within (destinations (.trap v)) (mayWriteCc (.trap v)) (mayWritePc (.trap v)) (setsHalted (.trap v)) s t := by
  have hlink : Within (destinations (.trap v)) (mayWriteCc (.trap v)) (mayWritePc (.trap v)) false s s.enterTrap :=
    within_setReg (by simp only [destinations]; split <;> simp) _
  refine hlink.trans ?_
  unfold execTrap at h
  rcases dispatchTrap_cases v s.enterTrap with ⟨rfl, hv⟩ | ⟨rfl, hv⟩ | ⟨rfl, hv⟩ | ⟨rfl, hv⟩ | ⟨⟨_, _, _, hne⟩, hv⟩ <;>
    rw [hv] at h
  · cases h
    cases hc : Config.getcSetsCc
    · exact within_setReg (by decide) _
    · simp only [mayWriteCc, hc]
      exact within_setcc (by decide) _
  · exact outputThen_within h fun u hu => by cases hu; exact .refl _
  · exact printFrom_within h
  · exact outputThen_halt_within h
  · cases h
    rw [show setsHalted (.trap v) = false from beq_false_of_ne hne]
    exact .refl _

/-- Every instruction stays within what the spec's lists give it (R20, R24, R27, R29). -/
theorem exec_within {i : Instr} {s t : State} (h : exec i s = .next t) :
    Within (destinations i) (mayWriteCc i) (mayWritePc i) (setsHalted i) s t := by
  cases i with
  | addReg a b c => cases h; exact within_setcc (List.mem_singleton_self a) _
  | addImm a b imm => cases h; exact within_setcc (List.mem_singleton_self a) _
  | andReg a b c => cases h; exact within_setcc (List.mem_singleton_self a) _
  | andImm a b imm => cases h; exact within_setcc (List.mem_singleton_self a) _
  | not a b => cases h; exact within_setcc (List.mem_singleton_self a) _
  | br nzp off => cases h; exact within_setPc _
  | jmp b => cases h; exact within_setPc _
  | jsr off => cases h; exact (within_setReg (List.mem_singleton_self .r7) _).trans (within_setPc _)
  | jsrr b => cases h; exact (within_setReg (List.mem_singleton_self .r7) _).trans (within_setPc _)
  | ld a off => exact loadFrom_within (List.mem_singleton_self a) h
  | ldi a off => exact loadIndirectFrom_within (List.mem_singleton_self a) h
  | ldr a b off => exact loadFrom_within (List.mem_singleton_self a) h
  | lea a off => cases h; exact within_setcc (List.mem_singleton_self a) _
  | st a off => cases h; exact within_store _ _
  | sti a off => exact storeIndirectFrom_within h
  | str a b off => cases h; exact within_store _ _
  | rti x => cases h
  | trap vect => exact execTrap_within h
  | unknown x => exact outputThen_halt_within h

/-! The cycle, and what a running engine does. -/

theorem fetchFrom_progress {addr : Word} {s t : State} (h : fetchFrom addr s = .next t) : Progress s t := by
  rcases fetchFrom_next h with ⟨ir, u, hread, hexec⟩ | ⟨_, rfl⟩
  · obtain ⟨rest, rfl⟩ := memRead_changes_only_input hread
    have hfetched : Progress s { s with input := rest }.advance := .of_kept rfl rfl rfl
    exact hfetched.trans (exec_within hexec).toProgress
  · exact .of_kept rfl rfl rfl

/-- A fetch waits at 0xFE02 alone, and the instruction after it waits in no fetch. -/
theorem fetchFrom_waitsInFetch {addr : Word} {s t : State} (h : fetchFrom addr s = .next t) (hs : s.wait = none)
    (ht : t.wait = some .fetch) : addr = 0xFE02 := by
  rcases fetchFrom_next h with ⟨ir, u, hread, hexec⟩ | ⟨hread, _⟩
  · obtain ⟨rest, rfl⟩ := memRead_changes_only_input hread
    have hfetch : s.wait = some .fetch := (exec_within hexec).waitsInFetch ht
    rw [hs] at hfetch
    cases hfetch
  · exact (memRead_waits hread).1

/-- An instruction that goes on after its fetch. -/
theorem goOnFrom_within {p : WaitPoint} {s t : State} (hp : p ≠ .fetch) (h : goOnFrom p s = .next t) :
    ∃ dest, Within dest true false false s t := by
  cases p with
  | fetch => exact absurd rfl hp
  | load a => exact ⟨[a], loadFrom_within (List.mem_singleton_self a) h⟩
  | loadPointer a => exact ⟨[a], loadIndirectFrom_within (List.mem_singleton_self a) h⟩
  | storePointer a => exact ⟨[], storeIndirectFrom_within h⟩
  | string => exact ⟨[], printFrom_within h⟩

theorem goOnFrom_progress {p : WaitPoint} {s t : State} (h : goOnFrom p s = .next t) : Progress s t := by
  by_cases hp : p = .fetch
  · subst hp
    exact fetchFrom_progress h
  · obtain ⟨_, hw⟩ := goOnFrom_within hp h
    exact hw.toProgress

theorem continueRun_waiting {s : State} {p : WaitPoint} (hw : s.wait = some p) :
    continueRun s = goOnFrom p (s.clearWait.inFlight p) := by
  simp only [continueRun, hw]

theorem continueRun_ready {s : State} (hw : s.wait = none) : continueRun s = fetchFrom s.pc s := by
  simp only [continueRun, hw, cycle]

theorem continueRun_progress {s t : State} (h : continueRun s = .next t) : Progress s t := by
  cases hw : s.wait with
  | none => exact fetchFrom_progress (continueRun_ready hw ▸ h)
  | some p =>
    have hflight : Progress s (s.clearWait.inFlight p) := .of_kept (by simp) (by simp) (by simp)
    exact hflight.trans (goOnFrom_progress (continueRun_waiting hw ▸ h))

/-- An engine that comes to wait in a fetch has fetched at 0xFE02, or has waited in a fetch before. -/
theorem continueRun_waitsInFetch {s t : State} (h : continueRun s = .next t) (ht : t.wait = some .fetch) :
    s.pc = 0xFE02 ∨ s.wait = some .fetch := by
  cases hw : s.wait with
  | none => exact .inl (fetchFrom_waitsInFetch (continueRun_ready hw ▸ h) hw ht)
  | some p =>
    by_cases hp : p = .fetch
    · exact .inr (congrArg some hp)
    · obtain ⟨_, hin⟩ := goOnFrom_within hp (continueRun_waiting hw ▸ h)
      have hfetch := hin.waitsInFetch ht
      rw [State.wait_inFlight] at hfetch
      cases hfetch

/-! The step. -/

theorem step_halted {s : State} (hh : s.halted = true) : step s = .next s := if_pos hh

theorem step_not_halted {s : State} (hh : s.halted = false) : step s = holdBack s (continueRun s) :=
  if_neg (by simp [hh])

/-- Where a step can lead: a halted engine stays, an instruction completes, or it comes to wait and the blocked engine shows
(R33, R92). -/
theorem step_next {s t : State} (h : step s = .next t) :
    (s.halted = true ∧ t = s) ∨
    (s.halted = false ∧ t.wait = none ∧ continueRun s = .next t) ∨
    (s.halted = false ∧ ∃ p u, u.wait = some p ∧ continueRun s = .next u ∧ t = s.blockedAt p u) := by
  cases hh : s.halted with
  | true =>
    rw [step_halted hh] at h
    cases h
    exact .inl ⟨rfl, rfl⟩
  | false =>
    rw [step_not_halted hh] at h
    rcases holdBack_next h with ⟨hw, hrun⟩ | hblocked
    · exact .inr (.inl ⟨rfl, hw, hrun⟩)
    · exact .inr (.inr ⟨rfl, hblocked⟩)

theorem step_fault {s : State} {f : Fault} (h : step s = .fault f) : continueRun s = .fault f := by
  cases hh : s.halted with
  | true => rw [step_halted hh] at h; cases h
  | false => exact holdBack_fault (step_not_halted hh ▸ h)

/-! What a fault leaves emitted (R201, R204): the history before the instruction, and what it has emitted since. -/

section
variable {s : State} {f : Fault}

theorem memRead_stops_output {a : Word} (h : memRead a s = .stops f) : faultOutput f = s.output := by
  rcases memRead_stops h with ⟨_, ⟨_, _, rfl⟩ | ⟨_, _, rfl⟩⟩ <;> rfl

theorem readThen_fault_output {a : Word} {p : WaitPoint} {k : Word → State → Result} (h : readThen a p s k = .fault f)
    (hk : ∀ v u, k v u = .fault f → u.output <+: faultOutput f) : s.output <+: faultOutput f := by
  rcases readThen_fault h with ⟨v, u, hread, hu⟩ | hstop
  · obtain ⟨rest, rfl⟩ := memRead_changes_only_input hread
    exact hk v { s with input := rest } hu
  · rw [memRead_stops_output hstop]

theorem outputThen_fault_output {e : OutputEvent} {k : State → Result} (h : outputThen e s k = .fault f)
    (hk : ∀ u, k u = .fault f → u.output <+: faultOutput f) : s.output <+: faultOutput f := by
  rcases outputThen_cases e s k with ⟨_, hfail⟩ | ⟨room, _, hgo⟩
  · rw [hfail] at h
    cases h
    exact List.prefix_rfl
  · exact (List.prefix_append _ _).trans (hk _ (hgo ▸ h))

theorem loadFrom_fault_output {addr : Word} {a : Reg} (h : loadFrom addr a s = .fault f) : s.output <+: faultOutput f :=
  readThen_fault_output h nofun

theorem loadIndirectFrom_fault_output {addr : Word} {a : Reg} (h : loadIndirectFrom addr a s = .fault f) :
    s.output <+: faultOutput f :=
  readThen_fault_output h fun _ _ => loadFrom_fault_output

theorem storeIndirectFrom_fault_output {addr : Word} {a : Reg} (h : storeIndirectFrom addr a s = .fault f) :
    s.output <+: faultOutput f :=
  readThen_fault_output h nofun

theorem stringLoop_fault_output {fuel : Nat} {a : Word} (h : stringLoop fuel a s = .fault f) :
    s.output <+: faultOutput f := by
  induction fuel generalizing a s with
  | zero => cases h
  | succ fuel ih =>
    refine readThen_fault_output h fun w u hu => ?_
    split at hu
    · cases hu
    · exact outputThen_fault_output hu fun _ => ih

theorem execTrap_fault_output {v : BitVec 8} (h : execTrap v s = .fault f) : s.output <+: faultOutput f := by
  unfold execTrap at h
  rcases dispatchTrap_cases v s.enterTrap with ⟨_, hv⟩ | ⟨_, hv⟩ | ⟨_, hv⟩ | ⟨_, hv⟩ | ⟨_, hv⟩ <;> rw [hv] at h
  · cases h
  · exact outputThen_fault_output (s := s.enterTrap) h nofun
  · exact stringLoop_fault_output (s := s.enterTrap) h
  · exact outputThen_fault_output (s := s.enterTrap) h nofun
  · cases h

theorem exec_fault_output {i : Instr} (h : exec i s = .fault f) : s.output <+: faultOutput f := by
  cases i with
  | ld a off => exact loadFrom_fault_output h
  | ldi a off => exact loadIndirectFrom_fault_output h
  | ldr a b off => exact loadFrom_fault_output h
  | sti a off => exact storeIndirectFrom_fault_output h
  | rti x => cases h; exact List.prefix_rfl
  | trap vect => exact execTrap_fault_output h
  | unknown x => exact outputThen_fault_output (k := fun u => .next u.halt) h nofun
  | addReg | addImm | andReg | andImm | not | br | jmp | jsr | jsrr | lea | st | str => cases h

theorem fetchFrom_fault_output {addr : Word} (h : fetchFrom addr s = .fault f) : s.output <+: faultOutput f :=
  readThen_fault_output h fun _ u hu => exec_fault_output (s := u.advance) hu

theorem goOnFrom_fault_output {p : WaitPoint} (h : goOnFrom p s = .fault f) : s.output <+: faultOutput f := by
  cases p with
  | fetch => exact fetchFrom_fault_output h
  | load a => exact loadFrom_fault_output h
  | loadPointer a => exact loadIndirectFrom_fault_output h
  | storePointer a => exact storeIndirectFrom_fault_output h
  | string => exact stringLoop_fault_output h

theorem continueRun_fault_output (h : continueRun s = .fault f) : s.output <+: faultOutput f := by
  cases hw : s.wait with
  | none => exact fetchFrom_fault_output (continueRun_ready hw ▸ h)
  | some p =>
    rw [continueRun_waiting hw] at h
    simpa using goOnFrom_fault_output h

end

end Sys2Proof.Machine

namespace Sys2Proof.Proofs

open Sys2Proof.Machine

/-- Settles O53: a completed instruction waits for nothing, and a blocked engine is the one before the step but for its
wait and its ports. -/
theorem stepKeepsTheInvariant : Obligations.StepKeepsTheInvariant := by
  intro s t hinv h
  have ⟨hmem, _, hfetch⟩ := hinv
  rcases step_next h with ⟨_, rfl⟩ | ⟨_, hw, hrun⟩ | ⟨hh, p, u, hu, hrun, rfl⟩
  · exact hinv
  · refine ⟨(continueRun_progress hrun).canonical hmem, fun _ => hw, fun ht => ?_⟩
    rw [hw] at ht
    cases ht
  · refine ⟨hmem, fun ht => ?_, fun ht => ?_⟩
    · rw [State.halted_blockedAt, hh] at ht
      cases ht
    · exact (continueRun_waitsInFetch hrun (hu.trans ht)).elim id hfetch

/-- Settles O55: `cc` is kept or written from a value. -/
theorem stepKeepsExactlyOneFlag : Obligations.StepKeepsExactlyOneFlag := by
  intro s t hs h
  rcases step_next h with ⟨_, rfl⟩ | ⟨_, _, hrun⟩ | ⟨_, _, _, _, _, rfl⟩
  · exact hs
  · rcases (continueRun_progress hrun).flags with hcc | ⟨v, hcc⟩ <;> rw [hcc]
    · exact hs
    · exact exactlyOneFlag_ccOf v
  · exact hs

/-- Settles O45: what `exec_within` says of `cc`. -/
theorem onlyTheListedInstructionsWriteCc : Obligations.OnlyTheListedInstructionsWriteCc :=
  fun _ _ _ h => (exec_within h).cc

/-- Settles O46: what `exec_within` says of the registers. -/
theorem onlyDestinationsAreWritten : Obligations.OnlyDestinationsAreWritten :=
  fun _ _ _ q h => (exec_within h).regs q

/-- Settles O47: what `exec_within` says of `pc`. -/
theorem onlyTransfersWritePc : Obligations.OnlyTransfersWritePc :=
  fun _ _ _ h => (exec_within h).pc

/-- Settles O49: what `exec_within` says of the halted flag, by the instructions that set it. -/
theorem onlyHaltAndUnknownOpcodeHalt : Obligations.OnlyHaltAndUnknownOpcodeHalt := by
  intro i s t h
  rw [(exec_within h).halted, Bool.or_eq_true, setsHalted_iff]

/-- Settles O51: a blocked engine shows the history of the instruction it is in. -/
theorem outputHistoryOnlyGrows : Obligations.OutputHistoryOnlyGrows := by
  refine ⟨fun s t h => ?_, fun s f h => continueRun_fault_output (step_fault h)⟩
  rcases step_next h with ⟨_, rfl⟩ | ⟨_, _, hrun⟩ | ⟨_, _, _, _, hrun, rfl⟩
  · exact List.prefix_rfl
  · exact (continueRun_progress hrun).output
  · exact (continueRun_progress hrun).output

/-- Settles O7: the fetch is an ordinary read, and `holdBack` shows what the statement writes out. -/
theorem stepRunsTheDecodedInstruction : Obligations.StepRunsTheDecodedInstruction := by
  rintro s i ⟨hh, hw⟩ ⟨h0, h2⟩ rfl _
  have hstep : step s = holdBack s (exec (decode (s.mem.read s.pc)) { s with pc := s.pc + 1 }) := by
    rw [step_running hh hw, fetchFrom, readThen_ordinary h0 h2]
    rfl
  rw [hstep]
  cases exec (decode (s.mem.read s.pc)) { s with pc := s.pc + 1 } with
  | next t =>
    cases ht : t.wait with
    | none => simp [holdBack_complete s ht, ht]
    | some p => simp [holdBack_blocked s ht, ht, State.blockedAt]
  | fault f => rfl
  | refused x => rfl

/-- Settles O9: the run loop's turn for a halted engine (R92). -/
theorem haltedEngineStaysAsItIs : Obligations.HaltedEngineStaysAsItIs :=
  fun _ hh => ⟨step_halted hh, if_pos hh⟩

/-- Settles O23, by the three cases of R26. -/
theorem setccLeavesExactlyOneFlag : Obligations.SetccLeavesExactlyOneFlag := by
  intro s r v
  refine ⟨s.reg_setcc_same r v, fun q hq => s.reg_setcc_other v hq, ?_⟩
  rw [State.cc_setcc]
  rcases ccOf_cases v with ⟨rfl, hcc⟩ | ⟨h0, hn, hcc⟩ | ⟨h0, hn, hcc⟩ <;> rw [hcc]
  · decide
  · simp only [ne_eq, h0, hn]
    decide
  · simp only [ne_eq, h0, hn]
    decide

/-- Settles O59: of an instruction that waits, a step shows the blocked engine. -/
theorem blockedInstructionShowsNothing : Obligations.BlockedInstructionShowsNothing := by
  refine ⟨fun s t h hwait => ?_, fun s _ _ => holdBack_blocked s, fun s _ => holdBack_complete s, holdBack_of_fault⟩
  rcases step_next h with ⟨_, rfl⟩ | ⟨_, hnone, _⟩ | ⟨_, _, _, _, _, rfl⟩
  · exact ⟨rfl, rfl, rfl, rfl, rfl⟩
  · exact absurd hnone hwait
  · exact ⟨rfl, rfl, rfl, rfl, rfl⟩

end Sys2Proof.Proofs
end

section
/-! The memory: what the canonical form and a load come to when words are read, and the bytes of an image body as words. -/

namespace Sys2Proof.Machine

/-! The canonical form. -/

theorem cellsRead_of_mem {cells : List Host.Cell} (h : cells.Pairwise (fun c d => c.1 < d.1)) {c : Host.Cell}
    (hc : c ∈ cells) : cellsRead cells c.1 = c.2 := by
  induction cells with
  | nil => cases hc
  | cons d rest ih =>
    obtain ⟨hlt, hrest⟩ := List.pairwise_cons.mp h
    rcases List.mem_cons.mp hc with rfl | hc
    · exact if_pos rfl
    · exact (if_neg (hlt c hc).ne').trans (ih hrest hc)

theorem mem_of_cellsRead_ne {cells : List Host.Cell} {k : Nat} (h : cellsRead cells k ≠ unlistedByte) :
    (k, cellsRead cells k) ∈ cells := by
  induction cells with
  | nil => exact absurd rfl h
  | cons d rest ih =>
    obtain ⟨key, b⟩ := d
    by_cases hk : k = key
    · simp [cellsRead, hk]
    · rw [cellsRead, if_neg hk] at h ⊢
      exact List.mem_cons_of_mem _ (ih h)

/-- A canonical list is determined by how it reads. -/
theorem mem_cells_iff {cells : List Host.Cell} (h : cellsCanonical cells) (c : Host.Cell) :
    c ∈ cells ↔ c.2 ≠ unlistedByte ∧ cellsRead cells c.1 = c.2 := by
  refine ⟨fun hc => ⟨(h.2 c hc).2, cellsRead_of_mem h.1 hc⟩, fun ⟨hlisted, hread⟩ => ?_⟩
  have hmem := mem_of_cellsRead_ne (cells := cells) (k := c.1) (hread ▸ hlisted)
  rwa [hread] at hmem

theorem cellsCanonical_ext {cells cells' : List Host.Cell} (h : cellsCanonical cells) (h' : cellsCanonical cells')
    (hread : ∀ k, cellsRead cells k = cellsRead cells' k) : cells = cells' := by
  have nodup {l : List Host.Cell} (hl : cellsCanonical l) : l.Nodup := hl.1.imp fun hlt he => hlt.ne (congrArg Prod.fst he)
  refine List.Perm.eq_of_pairwise (fun _ _ _ _ hlt hgt => absurd hgt hlt.asymm) h.1 h'.1
    ((List.perm_ext_iff_of_nodup (nodup h) (nodup h')).mpr fun c => ?_)
  rw [mem_cells_iff h, mem_cells_iff h', hread]

theorem cellsRead_of_le {cells : List Host.Cell} (h : cellsCanonical cells) {k : Nat} (hk : 2 * 65536 ≤ k) :
    cellsRead cells k = unlistedByte := by
  by_contra hne
  exact absurd (h.2 _ (mem_of_cellsRead_ne hne)).1 (Nat.not_lt.mpr hk)

/-- Memories with the same words have the same bytes in the 65536 words. -/
theorem Memory.cellsRead_eq_of_read_eq {m m' : Memory} (h : ∀ a, m.read a = m'.read a) {k : Nat} (hk : k < 2 * 65536) :
    cellsRead m.cells k = cellsRead m'.cells k := by
  obtain ⟨hhigh, hlow⟩ := wordOfBytes_inj (h (BitVec.ofNat 16 (k / 2)))
  rw [BitVec.toNat_ofNat, Nat.mod_eq_of_lt (by omega)] at hhigh hlow
  rcases Nat.mod_two_eq_zero_or_one k with hpar | hpar
  · rwa [show 2 * (k / 2) = k by omega] at hhigh
  · rwa [show 2 * (k / 2) + 1 = k by omega] at hlow

theorem Memory.ext_of_read {m m' : Memory} (hm : m.wf = true) (hm' : m'.wf = true) (h : ∀ a, m.read a = m'.read a) :
    m = m' := by
  rw [Memory.wf_iff] at hm hm'
  refine congrArg Memory.mk (cellsCanonical_ext hm hm' fun k => ?_)
  rcases Nat.lt_or_ge k (2 * 65536) with hk | hk
  · exact Memory.cellsRead_eq_of_read_eq h hk
  · rw [cellsRead_of_le hm hk, cellsRead_of_le hm' hk]

/-! Loading. -/

theorem add_ofNat_succ (a : Word) (k : Nat) : a + BitVec.ofNat 16 (k + 1) = a + 1 + BitVec.ofNat 16 k := by
  rw [Nat.add_comm, BitVec.ofNat_add, ← BitVec.add_assoc]
  rfl

theorem Memory.read_load_outside {m : Memory} {a x : Word} {words : List Word}
    (h : ∀ k < words.length, x ≠ a + BitVec.ofNat 16 k) : (m.load a words).read x = m.read x := by
  induction words generalizing m a with
  | nil => rfl
  | cons w rest ih =>
    have hfirst : x ≠ a := by simpa using h 0 (Nat.succ_pos _)
    rw [Memory.load, ih fun k hk => add_ofNat_succ a k ▸ h (k + 1) (Nat.succ_lt_succ hk), Memory.read_write_other _ _ hfirst]

/-- Words that all find room do not meet, though their addresses wrap. -/
theorem Memory.read_load_inside {m : Memory} {a : Word} {words : List Word} (hlen : words.length ≤ 0x10000) {k : Nat}
    (hk : k < words.length) : (m.load a words).read (a + BitVec.ofNat 16 k) = words[k] := by
  induction words generalizing m a k with
  | nil => cases hk
  | cons w rest ih =>
    rw [List.length_cons] at hlen
    cases k with
    | zero =>
      have hfirst : ∀ j < rest.length, a ≠ a + 1 + BitVec.ofNat 16 j := fun j hj => by bv_omega
      rw [BitVec.add_zero, Memory.load, Memory.read_load_outside hfirst, Memory.read_write_same]
      rfl
    | succ k =>
      rw [add_ofNat_succ]
      exact ih (Nat.le_of_succ_le hlen) (Nat.lt_of_succ_lt_succ hk)

/-! An image. -/

theorem toNat_wordOfBytes (hi lo : Byte) : (wordOfBytes hi lo).toNat = hi.toNat * 256 + lo.toNat := by
  have hhi : (place hi 8).toNat = hi.toNat <<< 8 := by
    have := hi.isLt
    simp only [place, BitVec.toNat_shiftLeft, BitVec.toNat_setWidth, Nat.shiftLeft_eq]
    omega
  have hlo : (place lo 0).toNat = lo.toNat := by
    have := lo.isLt
    simp only [place, BitVec.toNat_shiftLeft, BitVec.toNat_setWidth, Nat.shiftLeft_zero]
    omega
  rw [wordOfBytes, BitVec.toNat_or, hhi, hlo, ← Nat.shiftLeft_add_eq_or_of_lt lo.isLt, Nat.shiftLeft_eq]

theorem length_flatMap_bytePairs (body : List (Byte × Byte)) :
    (body.flatMap fun w => [w.1, w.2]).length = 2 * body.length := by
  simp [Nat.mul_comm]

theorem imageWords_bytePairs (body : List (Byte × Byte)) :
    imageWords (body.flatMap fun w => [w.1, w.2]) = body.map fun w => wordOfBytes w.1 w.2 := by
  induction body with
  | nil => rfl
  | cons w rest ih => exact congrArg (wordOfBytes w.1 w.2 :: ·) ih

/-- A body of whole words is well-formed exactly where it ends inside the memory. -/
theorem imageWellFormed_bytePairs (hi lo : Byte) (body : List (Byte × Byte)) :
    imageWellFormed (hi :: lo :: body.flatMap fun w => [w.1, w.2]) = true ↔
      hi.toNat * 256 + lo.toNat + body.length ≤ 0x10000 := by
  simp only [imageWellFormed, imageHasAddress, imageHasWholeWords, imageFits, imageStart, List.length_cons,
    length_flatMap_bytePairs, Bool.and_eq_true, decide_eq_true_eq, beq_iff_eq]
  omega

theorem State.loadImage_bytePairs {s : State} {hi lo : Byte} {body : List (Byte × Byte)}
    (h : hi.toNat * 256 + lo.toNat + body.length ≤ 0x10000) :
    s.loadImage (hi :: lo :: body.flatMap fun w => [w.1, w.2]) =
      s.load (BitVec.ofNat 16 (hi.toNat * 256 + lo.toNat)) (body.map fun w => wordOfBytes w.1 w.2) := by
  rw [State.loadImage, if_pos ((imageWellFormed_bytePairs hi lo body).mpr h), ← imageWords_bytePairs]
  rfl

theorem State.loadImage_of_not_wellFormed {s : State} {image : List Byte} (h : imageWellFormed image ≠ true) :
    s.loadImage image = .error .loadFailure := if_neg h

end Sys2Proof.Machine

namespace Sys2Proof.Proofs

open Sys2Proof.Machine

/-- Settles O14: the store's rule for the word written and for the others. -/
theorem writesStoreAtEveryAddress : Obligations.WritesStoreAtEveryAddress := fun s a v =>
  ⟨s.mem.read_write_same a v, fun _ hx => s.mem.read_write_other v hx, fun _ => rfl, rfl, rfl, rfl, rfl, rfl, rfl, rfl⟩

/-- Settles O19: canonical cells are determined by the bytes they read as. -/
theorem memoriesThatReadAlikeAreEqual : Obligations.MemoriesThatReadAlikeAreEqual :=
  fun _ _ => Memory.ext_of_read

/-- Settles O57: what `load` writes reads back, for it ends before it meets its beginning. -/
theorem loadCopiesItsWords : Obligations.LoadCopiesItsWords := by
  refine ⟨fun s start words h => ⟨_, if_pos h, fun k hk => ?_, fun x hx => ?_, rfl⟩, fun s start words h => ?_⟩
  · exact Memory.read_load_inside (by omega) hk
  · exact Memory.read_load_outside hx
  · exact if_neg (Nat.not_le.mpr h)

/-- Settles O58: an image is `load` of its big-endian words (O57). -/
theorem imageIsLoadedBigEndian : Obligations.ImageIsLoadedBigEndian := by
  refine ⟨fun s hi lo body h => ?_, fun s image h => ?_, fun s hi lo body h => ?_⟩
  · have hstart : (BitVec.ofNat 16 (hi.toNat * 256 + lo.toNat)).toNat = hi.toNat * 256 + lo.toNat := by
      have := hi.isLt
      have := lo.isLt
      exact Nat.mod_eq_of_lt (by omega)
    obtain ⟨t, hload, hinside, houtside, hframe⟩ := loadCopiesItsWords.1 s (BitVec.ofNat 16 (hi.toNat * 256 + lo.toNat))
      (body.map fun w => wordOfBytes w.1 w.2) (by rwa [hstart, List.length_map])
    simp only [List.length_map, ← BitVec.ofNat_add] at hinside houtside
    refine ⟨t, (State.loadImage_bytePairs h).trans hload, fun k hk => ?_, houtside, hframe⟩
    rw [hinside k hk, List.getElem_map, toNat_wordOfBytes]
  · refine State.loadImage_of_not_wellFormed fun hwf => ?_
    simp only [imageWellFormed, imageHasAddress, imageHasWholeWords, Bool.and_eq_true, decide_eq_true_eq,
      beq_iff_eq] at hwf
    omega
  · exact State.loadImage_of_not_wellFormed fun hwf =>
      Nat.not_le.mpr h ((imageWellFormed_bytePairs hi lo body).mp hwf)

end Sys2Proof.Proofs
end

section
/-! What a read gives, what an instruction does to the memory and the host's answers, and the fetch at each kind of
address. -/

namespace Sys2Proof.Machine

/-! Reads. -/

theorem mem_read_stores_elsewhere {s : State} {a : Word} {writes : List (Word × Word)} (h : ∀ w ∈ writes, w.1 ≠ a) :
    (writes.foldl (fun s w => s.store w.1 w.2) s).mem.read a = s.mem.read a := by
  induction writes generalizing s with
  | nil => rfl
  | cons w rest ih =>
    obtain ⟨hfirst, hrest⟩ := List.forall_mem_cons.mp h
    rw [List.foldl_cons, ih hrest, State.mem_store, Memory.read_write_other _ _ hfirst.symm]

theorem kbsrReady_ready : Config.kbsrReady.getLsbD 15 = true := by simp [Config.kbsrReady]

theorem memRead_data_byte {s : State} {b : Byte} {rest : List InputAnswer} (h : s.input = .byte b :: rest) (hb : b ≠ 0x03) :
    memRead 0xFE02 s = .value ((translateInput b).setWidth 16) { s with input := rest } := by
  simp only [memRead_data, inputRead, h, if_neg hb]

theorem memRead_data_cancel {s : State} {rest : List InputAnswer} (h : s.input = .byte 0x03 :: rest) :
    memRead 0xFE02 s = .stops (.inputCancelled 0xFE02 s.output) := by
  simp only [memRead_data, inputRead, h]
  rfl

theorem memRead_data_fail {s : State} {rest : List InputAnswer} (h : s.input = .fail :: rest) :
    memRead 0xFE02 s = .stops (.ioFailure .input s.output) := by
  simp only [memRead_data, inputRead, h]

theorem memRead_data_unanswered {s : State} (h : s.input = []) : memRead 0xFE02 s = .waits := by
  simp only [memRead_data, inputRead, h]

/-! What an instruction does to the memory and to the host's answers. -/

/-- `t` can come of `s` by operations that write at most the word at `target`, and take answers of the host in their
order. -/
structure Accesses (target : Option Word) (s t : State) : Prop where
  mem : t.mem = s.mem ∨ ∃ a ∈ target, ∃ v, t.mem = s.mem.write a v
  input : t.input <:+ s.input

section
variable {target : Option Word} {s t u : State}

theorem Accesses.of_kept (hmem : t.mem = s.mem) (hin : t.input = s.input) : Accesses target s t :=
  ⟨.inl hmem, hin ▸ List.suffix_rfl⟩

/-- Reads, then the rest. -/
theorem Accesses.of_reads (hmem : u.mem = s.mem) (hin : u.input <:+ s.input) (h : Accesses target u t) :
    Accesses target s t :=
  ⟨hmem ▸ h.mem, h.input.trans hin⟩

theorem Accesses.memoryKept (h : Accesses none s t) : MemoryKept s t := by
  rcases h.mem with hm | ⟨a, ha, _⟩
  · exact fun x => by rw [hm]
  · cases ha

theorem Accesses.memoryKeptBut {a : Word} (h : Accesses (some a) s t) : MemoryKeptBut a s t := by
  rcases h.mem with hm | ⟨_, ⟨⟩, v, hm⟩
  · exact fun x _ => by rw [hm]
  · exact fun x hx => by rw [hm, Memory.read_write_other _ _ hx]

theorem accesses_store (a v : Word) : Accesses (some a) s (s.store a v) :=
  ⟨.inr ⟨a, rfl, v, rfl⟩, List.suffix_rfl⟩

theorem memRead_input_suffix {a v : Word} (h : memRead a s = .value v u) : u.input <:+ s.input := by
  rcases memRead_value h with ⟨_, rfl⟩ | ⟨_, _, _, hin, _, _, rfl⟩
  · exact List.suffix_rfl
  · exact hin ▸ List.suffix_cons _ _

theorem memRead_mem {a v : Word} (h : memRead a s = .value v u) : u.mem = s.mem := by
  obtain ⟨_, rfl⟩ := memRead_changes_only_input h
  rfl

theorem Accesses.of_memRead {a v : Word} (hread : memRead a s = .value v u) (h : Accesses target u t) :
    Accesses target s t :=
  h.of_reads (memRead_mem hread) (memRead_input_suffix hread)

theorem loadFrom_accesses {addr : Word} {a : Reg} (h : loadFrom addr a s = .next t) : Accesses none s t := by
  rcases loadFrom_next h with ⟨v, u, hread, rfl⟩ | ⟨_, rfl⟩
  · exact .of_memRead hread (.of_kept rfl rfl)
  · exact .of_kept rfl rfl

theorem loadIndirectFrom_accesses {addr : Word} {a : Reg} (h : loadIndirectFrom addr a s = .next t) :
    Accesses none s t := by
  rcases loadIndirectFrom_next h with ⟨p, u, hread, hload⟩ | ⟨_, rfl⟩
  · exact .of_memRead hread (loadFrom_accesses hload)
  · exact .of_kept rfl rfl

/-- The one word an indirect store writes is the one its pointer read names. -/
theorem storeIndirectFrom_accesses {addr : Word} {a : Reg} (h : storeIndirectFrom addr a s = .next t) :
    (∃ p u, memRead addr s = .value p u ∧ Accesses (some p) s t) ∨ (memRead addr s = .waits ∧ Accesses none s t) := by
  rcases storeIndirectFrom_next h with ⟨p, u, hread, rfl⟩ | ⟨hread, rfl⟩
  · exact .inl ⟨p, u, hread, .of_memRead hread (accesses_store p _)⟩
  · exact .inr ⟨hread, .of_kept rfl rfl⟩

theorem printFrom_accesses {a : Word} (h : printFrom a s = .next t) : Accesses none s t := by
  obtain ⟨_, _, _, _, hmem, _, _, hin⟩ := printFrom_next h
  exact ⟨.inl hmem, hin⟩

theorem outputThen_accesses {e : OutputEvent} {k : State → Result} (h : outputThen e s k = .next t)
    (hk : ∀ u, k u = .next t → Accesses none u t) : Accesses none s t := by
  obtain ⟨room, hnext⟩ := outputThen_next h
  exact .of_reads (u := { s with output := s.output ++ [e], outputRoom := room }) rfl List.suffix_rfl (hk _ hnext)

theorem outputThen_halt_accesses {e : OutputEvent} (h : (outputThen e s fun u => .next u.halt) = .next t) :
    Accesses none s t :=
  outputThen_accesses h fun _ hu => by cases hu; exact .of_kept rfl rfl

theorem dispatchTrap_accesses {v : BitVec 8} (h : dispatchTrap v s = .next t) : Accesses none s t := by
  rcases dispatchTrap_cases v s with ⟨_, hv⟩ | ⟨_, hv⟩ | ⟨_, hv⟩ | ⟨_, hv⟩ | ⟨_, hv⟩ <;> rw [hv] at h
  · cases h
    cases Config.getcSetsCc <;> exact .of_kept rfl rfl
  · exact outputThen_accesses h fun _ hu => by cases hu; exact .of_kept rfl rfl
  · exact printFrom_accesses h
  · exact outputThen_halt_accesses h
  · cases h
    exact .of_kept rfl rfl

/-- Every instruction accesses what R63 gives it. -/
theorem exec_accesses {i : Instr} (h : exec i s = .next t) : Accesses (storeAddress i s) s t := by
  cases i with
  | ld a off => exact loadFrom_accesses h
  | ldi a off => exact loadIndirectFrom_accesses h
  | ldr a b off => exact loadFrom_accesses h
  | st a off => cases h; exact accesses_store _ _
  | sti a off =>
    rcases storeIndirectFrom_accesses h with ⟨p, u, hread, hacc⟩ | ⟨hread, hacc⟩ <;> rw [pcRelative] at hread
    · simpa only [storeAddress, hread] using hacc
    · simpa only [storeAddress, hread] using hacc
  | str a b off => cases h; exact accesses_store _ _
  | trap vect => exact .of_reads (u := s.enterTrap) rfl List.suffix_rfl (dispatchTrap_accesses h)
  | unknown x => exact outputThen_halt_accesses h
  | addReg | addImm | andReg | andImm | not | br | jmp | jsr | jsrr | lea | rti => cases h <;> exact .of_kept rfl rfl

theorem fetchFrom_input_suffix {addr : Word} (h : fetchFrom addr s = .next t) : t.input <:+ s.input := by
  rcases fetchFrom_next h with ⟨ir, u, hread, hexec⟩ | ⟨_, rfl⟩
  · have hin : t.input <:+ u.input := (exec_accesses hexec).input
    exact hin.trans (memRead_input_suffix hread)
  · exact List.suffix_rfl

theorem goOnFrom_input_suffix {p : WaitPoint} (h : goOnFrom p s = .next t) : t.input <:+ s.input := by
  cases p with
  | fetch => exact fetchFrom_input_suffix h
  | load a => exact (loadFrom_accesses h).input
  | loadPointer a => exact (loadIndirectFrom_accesses h).input
  | storePointer a => rcases storeIndirectFrom_accesses h with ⟨_, _, _, hacc⟩ | ⟨_, hacc⟩ <;> exact hacc.input
  | string => exact (printFrom_accesses h).input

theorem continueRun_input_suffix (h : continueRun s = .next t) : t.input <:+ s.input := by
  cases hw : s.wait with
  | none => exact fetchFrom_input_suffix (continueRun_ready hw ▸ h)
  | some p =>
    rw [continueRun_waiting hw] at h
    simpa using goOnFrom_input_suffix h

end

/-! The fetch. -/

theorem step_fetch {s : State} {addr : Word} (hr : s.Ready) (hpc : s.pc = addr) :
    step s = holdBack s (fetchFrom addr s) :=
  hpc ▸ step_running hr.1 hr.2

/-- A step that fetches without interception (R53, R90). -/
theorem step_ordinary {s : State} (hr : s.Ready) (hpc : Ordinary s.pc) :
    step s = holdBack s (exec (decode (s.mem.read s.pc)) s.advance) := by
  rw [step_running hr.1 hr.2, fetchFrom, readThen_ordinary hpc.1 hpc.2]

/-- A field above the byte of a zero-extended byte. -/
theorem extract_byte_above (b : Byte) {pos n : Nat} (h : 8 ≤ pos) : (b.setWidth 16).extractLsb' pos n = 0#n := by
  apply BitVec.eq_of_getLsbD_eq
  intro i hi
  simp [BitVec.getLsbD_of_ge b (pos + i) (by omega)]

/-- A byte, zero-extended, is BR with the mask 000. -/
theorem decode_byte (b : Byte) : decode (b.setWidth 16) = .br 0 (fieldOff9 (b.setWidth 16)) := by
  have hop : opField (b.setWidth 16) = 0#4 := extract_byte_above b (by decide)
  have hnzp : fieldNzp (b.setWidth 16) = 0#3 := extract_byte_above b (by decide)
  simp only [decode, hop, hnzp]
  rfl

theorem exec_br_never (off : BitVec 9) (s : State) : exec (.br 0 off) s = .next s := by
  simp [exec, execBr, ccMatches, State.setPc]

theorem exec_st_next (a : Reg) (s : State) : exec (.st a 0) s = .next (s.store s.pc (s.reg a)) := by
  have haddr : pcRelative 0 s = s.pc := by
    rw [pcRelative, show sext (0 : BitVec 9) = 0 by decide]
    exact BitVec.add_zero s.pc
  rw [exec, execSt, haddr]

end Sys2Proof.Machine

namespace Sys2Proof.Proofs

open Sys2Proof.Machine

/-- Settles O15: writes elsewhere leave the word; `kbsr_ready` is not 0; a read of 0xFE02 takes an answer. -/
theorem readGivesTheLastWrite : Obligations.ReadGivesTheLastWrite := by
  refine ⟨fun s a v later ha hlater => ?_, fun s h => ?_, fun s v h => ?_⟩
  · intro u
    rw [memRead_ordinary ha.1 ha.2, mem_read_stores_elsewhere hlater, State.mem_store, Memory.read_write_same]
  · rw [memRead_status, Reading.value.injEq] at h
    have hready := kbsrReady_ready
    rw [h.1] at hready
    cases hready
  · rcases memRead_value h with ⟨hne, _⟩ | ⟨b, rest, _, hin, _, _, hs⟩
    · exact hne rfl
    · rw [congrArg State.input hs] at hin
      exact List.cons_ne_self _ _ hin.symm

/-- Settles O16: the read's rule at an address that is not intercepted. -/
theorem ordinaryReadGivesTheStoredWord : Obligations.OrdinaryReadGivesTheStoredWord :=
  fun s _ h0 h2 => memRead_ordinary h0 h2 s

/-- Settles O17: the word is `kbsr_ready`. -/
theorem statusReadIsAlwaysReady : Obligations.StatusReadIsAlwaysReady :=
  ⟨Config.kbsrReady, kbsrReady_ready, memRead_status⟩

/-- Settles O18, by the host's answer. -/
theorem dataReadTakesOneAnswer : Obligations.DataReadTakesOneAnswer :=
  ⟨fun _ _ _ => memRead_data_byte, fun _ _ => memRead_data_cancel, fun _ _ => memRead_data_fail,
    fun _ => memRead_data_unanswered⟩

/-- Settles O48: what `exec_accesses` says of the memory. -/
theorem onlyStoresWriteMemory : Obligations.OnlyStoresWriteMemory := fun _ _ _ h =>
  ⟨fun ha => (ha ▸ exec_accesses h).memoryKept, fun _ ha => (ha ▸ exec_accesses h).memoryKeptBut⟩

/-- Settles O52: a blocked engine shows the answers that its instruction has left. -/
theorem inputIsTakenInOrder : Obligations.InputIsTakenInOrder := by
  intro s t h
  rcases step_next h with ⟨_, rfl⟩ | ⟨_, _, hrun⟩ | ⟨_, _, _, _, hrun, rfl⟩
  · exact List.suffix_rfl
  · exact continueRun_input_suffix hrun
  · exact (continueRun_input_suffix hrun :)

/-- Settles O8: the fetch is the read of its address, and a byte of the host is a BR that never branches. -/
theorem fetchAtDeviceAddresses : Obligations.FetchAtDeviceAddresses := by
  refine ⟨fun s hr hpc => ?_, fun s b rest hr hpc hin hb => ?_, fun s rest hr hpc hin => ?_, fun s rest hr hpc hin => ?_,
    fun s hr hpc hin => ?_⟩
  · rw [step_fetch hr hpc, fetchFrom, readThen_value (memRead_status s), State.advance, hpc]
    rfl
  · rw [step_fetch hr hpc, fetchFrom, readThen_value (memRead_data_byte hin hb), decode_byte, exec_br_never,
      State.advance, hpc]
    exact holdBack_complete s hr.2
  · rw [step_fetch hr hpc, fetchFrom, readThen_stops (memRead_data_cancel hin), holdBack_of_fault]
  · rw [step_fetch hr hpc, fetchFrom, readThen_stops (memRead_data_fail hin), holdBack_of_fault]
  · rw [step_fetch hr hpc, fetchFrom, readThen_waits (memRead_data_unanswered hin),
      holdBack_blocked s (State.wait_waitAt s _)]
    rfl

/-- Settles O12: the store completes, and the next step fetches what it stored. -/
theorem storeToTheNextInstructionIsExecuted : Obligations.StoreToTheNextInstructionIsExecuted := by
  intro s a hr hpc hpc' hst
  have hready : (s.advance.store (s.pc + 1) (s.reg a)).Ready := hr
  have hstored : (s.advance.store (s.pc + 1) (s.reg a)).mem.read (s.pc + 1) = s.reg a := Memory.read_write_same _ _ _
  have hpc_next : s.pc + 2 = s.pc + 1 + 1 := (BitVec.add_assoc s.pc 1 1).symm
  refine ⟨s.advance.store (s.pc + 1) (s.reg a), ?_, hstored, rfl, ?_⟩
  · rw [step_ordinary hr hpc, hst, exec_st_next]
    exact holdBack_complete s hr.2
  · rw [step_ordinary hready hpc', State.pc_store, State.pc_advance, hstored, hpc_next]
    rfl

end Sys2Proof.Proofs
end

section
/-! Waiting for the host (R33, R55, R91). The loop of TRAP 0x22 unrolls without its fuel, every operation that comes to wait
can be taken up again at its wait point, and so a step after the answer is the step that had it from the start. -/

namespace Sys2Proof.Machine

/-! The loop of TRAP 0x22, without its fuel (R155). -/

/-- A read whose value goes on takes one of the reads a string has left, wherever it is. -/
theorem stringReads_read {a v : Word} {s u : State} (h : memRead a s = .value v u) :
    stringReads a s = stringReads (a + 1) u + 1 := by
  rcases memRead_value h with ⟨hne, rfl⟩ | ⟨_, _, rfl, hin, _, _, rfl⟩
  · exact stringReads_advance hne u
  · exact stringReads_answered hin

/-- What TRAP 0x22 does with a word of its string, read at `a`. -/
def printWord (a w : Word) (s : State) : Result :=
  if w = 0 then .next s else outputThen (.char (lowByte w)) s (printFrom (a + 1))

theorem outputThen_congr {e : OutputEvent} {s : State} {k k' : State → Result}
    (h : ∀ out room, k { s with output := out, outputRoom := room } = k' { s with output := out, outputRoom := room }) :
    outputThen e s k = outputThen e s k' := by
  unfold outputThen
  split
  · rename_i hroom
    simpa only [← hroom] using h (s.output ++ [e]) none
  · exact h _ _
  · rfl

/-- R155's loop, a read at a time. -/
theorem printFrom_eq (a : Word) (s : State) : printFrom a s = readThen a .string s (printWord a) := by
  obtain ⟨n, hn⟩ := Nat.exists_eq_succ_of_ne_zero (stringReads_pos a s).ne'
  rw [printFrom, hn, stringLoop]
  cases hread : memRead a s with
  | value w u =>
    have hu : stringReads (a + 1) u = n := by
      have := stringReads_read hread
      omega
    rw [readThen_value hread, readThen_value hread, printWord]
    split
    · rfl
    · refine outputThen_congr fun out room => ?_
      rw [printFrom, show stringReads (a + 1) { u with output := out, outputRoom := room } = n from hu]
  | waits => rw [readThen_waits hread, readThen_waits hread]
  | stops f => rw [readThen_stops hread, readThen_stops hread]

/-! The read at a wait point. -/

/-- What an instruction does with the word it reads at its wait point, the read being one of 0xFE02. -/
def continuation : WaitPoint → Word → State → Result
  | .fetch => fun ir s => exec (decode ir) s.advance
  | .load a => fun v s => .next (s.setcc a v)
  | .loadPointer a => fun p s => loadFrom p a s
  | .storePointer a => fun p s => .next (s.store p (s.reg a))
  | .string => printWord inputDataAddr

theorem goOnFrom_eq (p : WaitPoint) (s : State) : goOnFrom p s = readThen inputDataAddr p s (continuation p) := by
  cases p with
  | string => exact printFrom_eq inputDataAddr s
  | fetch | load | loadPointer | storePointer => rfl

theorem goOnFrom_unanswered {p : WaitPoint} {s : State} (h : s.input = []) : goOnFrom p s = .next (s.waitAt p) := by
  rw [goOnFrom_eq, inputDataAddr, readThen_waits (memRead_data_unanswered h)]

/-! An answer behind those that are taken changes nothing. -/

theorem memRead_answer {a v : Word} {s u : State} (h : memRead a s = .value v u) (x : InputAnswer) :
    memRead a (s.answer x) = .value v (u.answer x) := by
  by_cases h2 : a = 0xFE02
  · rcases memRead_value h with ⟨hne, _⟩ | ⟨b, rest, _, hin, hb, rfl, rfl⟩
    · exact absurd h2 hne
    · have hin' : (s.answer x).input = .byte b :: (rest ++ [x]) := by rw [State.input_answer, hin, List.cons_append]
      rw [h2, memRead_data_byte hin' hb]
      rfl
  · by_cases h0 : a = 0xFE00
    · subst h0
      cases h
      rfl
    · rw [memRead_ordinary h0 h2] at h ⊢
      cases h
      rfl

theorem outputThen_answer (e : OutputEvent) (s : State) (k : State → Result) (x : InputAnswer) :
    outputThen e (s.answer x) k = outputThen e s fun u => k (u.answer x) := by
  unfold outputThen
  rw [State.outputRoom_answer]
  split <;> rfl

/-! Taking an operation up again. -/

/-- `t` is `s` but for the ports and the wait. -/
structure SameInside (s t : State) : Prop where
  regs : t.regs = s.regs
  pc : t.pc = s.pc
  cc : t.cc = s.cc
  halted : t.halted = s.halted
  mem : t.mem = s.mem

/-- Where the operation `op`, inside an instruction begun in `b`, comes to wait in `s`, the blocked engine loses nothing of
it that `inFlight` does not give back, and once the host has answered it ends as it would have ended with the answer. -/
def Resumable (b : State) (op : State → Result) (s : State) : Prop :=
  ∀ t p x, s.wait = none → op s = .next t → t.wait = some p →
    SameInside (b.inFlight p) t ∧ op (s.answer x) = goOnFrom p (t.clearWait.answer x)

section
variable {b s t : State}

theorem SameInside.refl (s : State) : SameInside s s := ⟨rfl, rfl, rfl, rfl, rfl⟩

theorem SameInside.memRead {a v : Word} {u : State} (h : SameInside b s) (hread : memRead a s = .value v u) :
    SameInside b u := by
  obtain ⟨_, rfl⟩ := memRead_changes_only_input hread
  exact ⟨h.regs, h.pc, h.cc, h.halted, h.mem⟩

theorem SameInside.advance (h : SameInside b s) : SameInside b.advance s.advance :=
  ⟨h.regs, congrArg (· + 1) h.pc, h.cc, h.halted, h.mem⟩

theorem SameInside.enterTrap (h : SameInside b s) : SameInside b.enterTrap s.enterTrap :=
  ⟨by rw [State.regs_enterTrap, State.regs_enterTrap, h.regs, h.pc], h.pc, h.cc, h.halted, h.mem⟩

/-- The blocked engine, its wait ended and its instruction in flight again, is the state inside the instruction. -/
theorem SameInside.inFlight_blockedAt {p : WaitPoint} (h : SameInside (s.inFlight p) t) :
    (s.blockedAt p t).clearWait.inFlight p = t.clearWait := by
  obtain ⟨hregs, hpc, hcc, hhalted, hmem⟩ := h
  have hclear : t.clearWait = { t with wait := none } := rfl
  rw [hclear, hregs, hpc, hcc, hhalted, hmem]
  cases p <;> rfl

theorem resumable_of_wait_kept {op : State → Result} (h : ∀ t, op s = .next t → t.wait = s.wait) : Resumable b op s := by
  intro t p x hs ht hp
  rw [h t ht, hs] at hp
  cases hp

/-- A read that may wait at `p`: there it is the read that `goOnFrom` begins with. -/
theorem resumable_readThen {a : Word} {p : WaitPoint} {k : Word → State → Result} (hb : SameInside (b.inFlight p) s)
    (hp : a = inputDataAddr → k = continuation p) (hk : ∀ v u, memRead a s = .value v u → Resumable b (k v) u) :
    Resumable b (fun s => readThen a p s k) s := by
  intro t q x hs ht hq
  rcases readThen_next ht with ⟨v, u, hread, hnext⟩ | ⟨hread, rfl⟩
  · have hu : u.wait = none := by
      obtain ⟨_, rfl⟩ := memRead_changes_only_input hread
      exact hs
    obtain ⟨hsame, hgo⟩ := hk v u hread t q x hu hnext hq
    exact ⟨hsame, (readThen_value (memRead_answer hread x)).trans hgo⟩
  · cases hq
    have ha : a = inputDataAddr := (memRead_waits hread).1
    have hclear : (s.waitAt p).clearWait = s := by
      rw [State.waitAt, State.clearWait, ← hs]
    refine ⟨⟨hb.regs, hb.pc, hb.cc, hb.halted, hb.mem⟩, ?_⟩
    rw [hclear, goOnFrom_eq, ← hp ha, ha]

theorem resumable_outputThen {e : OutputEvent} {k : State → Result}
    (hk : ∀ out room, Resumable b k { s with output := out, outputRoom := room }) :
    Resumable b (fun s => outputThen e s k) s := by
  intro t q x hs ht hq
  simp only [outputThen_answer]
  cases hroom : s.outputRoom with
  | none =>
    simp only [outputThen, hroom] at ht ⊢
    exact hk _ _ t q x hs ht hq
  | some n =>
    cases n with
    | zero => simp only [outputThen, hroom] at ht; cases ht
    | succ n =>
      simp only [outputThen, hroom] at ht ⊢
      exact hk _ _ t q x hs ht hq

theorem resumable_loadFrom {addr : Word} {a : Reg} (hb : SameInside b.advance s) : Resumable b (loadFrom addr a) s :=
  resumable_readThen (p := .load a) hb (fun _ => rfl) fun _ _ _ => resumable_of_wait_kept fun _ h => by cases h; rfl

theorem resumable_loadIndirectFrom {addr : Word} {a : Reg} (hb : SameInside b.advance s) :
    Resumable b (loadIndirectFrom addr a) s :=
  resumable_readThen (p := .loadPointer a) hb (fun _ => rfl) fun _ _ hread => resumable_loadFrom (hb.memRead hread)

theorem resumable_storeIndirectFrom {addr : Word} {a : Reg} (hb : SameInside b.advance s) :
    Resumable b (storeIndirectFrom addr a) s :=
  resumable_readThen (p := .storePointer a) hb (fun _ => rfl) fun _ _ _ =>
    resumable_of_wait_kept fun _ h => by cases h; rfl

/-- A string, by the reads it has left. -/
theorem resumable_printFrom {a : Word} (hb : SameInside b.advance.enterTrap s) : Resumable b (printFrom a) s := by
  induction hn : stringReads a s generalizing a s with
  | zero => exact absurd hn (stringReads_pos a s).ne'
  | succ n ih =>
    rw [show printFrom a = fun s => readThen a .string s (printWord a) from funext (printFrom_eq a)]
    refine resumable_readThen (p := .string) hb (fun ha => by rw [ha]; rfl) fun w u hread => ?_
    unfold printWord
    by_cases hw : w = 0
    · simp only [if_pos hw]
      exact resumable_of_wait_kept fun _ h => by cases h; rfl
    · simp only [if_neg hw]
      have hsame := hb.memRead hread
      have hleft : stringReads (a + 1) u = n := by
        have := stringReads_read hread
        omega
      exact resumable_outputThen fun out room => ih ⟨hsame.regs, hsame.pc, hsame.cc, hsame.halted, hsame.mem⟩ hleft

theorem resumable_outputThen_halt {e : OutputEvent} : Resumable b (fun s => outputThen e s fun u => .next u.halt) s :=
  resumable_outputThen fun _ _ => resumable_of_wait_kept fun _ h => by cases h; rfl

theorem dispatchTrap_out : dispatchTrap 0x21 = trapOut := funext fun _ => by simp [dispatchTrap]

theorem dispatchTrap_puts : dispatchTrap 0x22 = trapPuts := funext fun _ => by simp [dispatchTrap]

theorem dispatchTrap_halt : dispatchTrap 0x25 = trapHalt := funext fun _ => by simp [dispatchTrap]

theorem resumable_trapOut : Resumable b trapOut s :=
  fun t p x => resumable_outputThen (k := .next) (fun _ _ => resumable_of_wait_kept fun _ h => by cases h; rfl) t p x

theorem resumable_trapPuts (hb : SameInside b.advance.enterTrap s) : Resumable b trapPuts s :=
  fun t p x => resumable_printFrom (a := s.reg .r0) hb t p x

theorem resumable_dispatchTrap {v : BitVec 8} (hb : SameInside b.advance.enterTrap s) :
    Resumable b (dispatchTrap v) s := by
  rcases dispatchTrap_cases v s with ⟨_, hv⟩ | ⟨rfl, _⟩ | ⟨rfl, _⟩ | ⟨rfl, _⟩ | ⟨_, hv⟩
  · refine resumable_of_wait_kept fun t h => ?_
    rw [hv] at h
    cases h
    split <;> rfl
  · rw [dispatchTrap_out]
    exact resumable_trapOut
  · rw [dispatchTrap_puts]
    exact resumable_trapPuts hb
  · rw [dispatchTrap_halt]
    exact resumable_outputThen_halt
  · refine resumable_of_wait_kept fun t h => ?_
    rw [hv] at h
    cases h
    rfl

theorem resumable_exec {i : Instr} (hb : SameInside b.advance s) : Resumable b (exec i) s := by
  cases i with
  | ld a off => exact resumable_loadFrom hb
  | ldi a off => exact resumable_loadIndirectFrom hb
  | ldr a c off => exact resumable_loadFrom hb
  | sti a off => exact resumable_storeIndirectFrom hb
  | trap vect => exact fun t p x hs ht => resumable_dispatchTrap hb.enterTrap t p x hs ht
  | unknown x => exact resumable_outputThen_halt
  | addReg | addImm | andReg | andImm | not | br | jmp | jsr | jsrr | lea | st | str | rti =>
    exact resumable_of_wait_kept fun _ h => by cases h <;> rfl

theorem resumable_fetchFrom {addr : Word} (hb : SameInside b s) : Resumable b (fetchFrom addr) s :=
  resumable_readThen (p := .fetch) hb (fun _ => rfl) fun _ _ hread t p x hs ht =>
    resumable_exec (hb.memRead hread).advance t p x hs ht

theorem resumable_goOnFrom {q : WaitPoint} (hb : SameInside (b.inFlight q) s) : Resumable b (goOnFrom q) s := by
  cases q with
  | fetch => exact resumable_fetchFrom hb
  | load a => exact resumable_loadFrom hb
  | loadPointer a => exact resumable_loadIndirectFrom hb
  | storePointer a => exact resumable_storeIndirectFrom hb
  | string => exact resumable_printFrom hb

theorem State.clearWait_of_ready (hw : s.wait = none) : s.clearWait = s := by
  rw [State.clearWait, ← hw]

theorem State.inFlight_answer (s : State) (p : WaitPoint) (x : InputAnswer) :
    (s.answer x).inFlight p = (s.inFlight p).answer x := by
  cases p <;> rfl

/-- What a running engine does next can be taken up again where it comes to wait. -/
theorem continueRun_resumes {p : WaitPoint} (h : continueRun s = .next t) (hp : t.wait = some p) (x : InputAnswer) :
    SameInside (s.clearWait.inFlight p) t ∧ continueRun (s.answer x) = goOnFrom p (t.clearWait.answer x) := by
  cases hw : s.wait with
  | none =>
    rw [continueRun_ready hw] at h
    rw [State.clearWait_of_ready hw, continueRun_ready (s := s.answer x) hw]
    exact resumable_fetchFrom (.refl s) t p x hw h hp
  | some q =>
    rw [continueRun_waiting hw] at h
    rw [continueRun_waiting (s := s.answer x) hw]
    have hresume := resumable_goOnFrom (.refl (s.clearWait.inFlight q)) t p x (State.wait_inFlight _ _) h hp
    rwa [← State.inFlight_answer] at hresume

/-- Engines that differ in their wait and their ports alone show the same of what they do. -/
theorem holdBack_congr {r : Result} (h : ∀ p u, s.blockedAt p u = t.blockedAt p u) : holdBack s r = holdBack t r := by
  unfold holdBack
  simp only [h]

end

end Sys2Proof.Machine

namespace Sys2Proof.Proofs

open Sys2Proof.Machine

/-- Settles O11: the instruction is taken up again as it was inside, and ends as it would have ended with the answer. -/
theorem waitingIsTransparent : Obligations.WaitingIsTransparent := by
  intro s t x hh h hwait
  rcases step_next h with ⟨hhalted, _⟩ | ⟨_, hnone, _⟩ | ⟨_, p, u, hp, hrun, rfl⟩
  · rw [hh] at hhalted
    cases hhalted
  · exact absurd hnone hwait
  · obtain ⟨hsame, hresume⟩ := continueRun_resumes hrun hp x
    have hinside : ((s.blockedAt p u).answer x).clearWait.inFlight p = u.clearWait.answer x :=
      (State.inFlight_answer _ p x).trans (congrArg (State.answer · x) hsame.inFlight_blockedAt)
    have hblocked : continueRun ((s.blockedAt p u).answer x) = continueRun (s.answer x) := by
      rw [hresume, ← hinside]
      rfl
    rw [step_not_halted (s := (s.blockedAt p u).answer x) hh, step_not_halted (s := s.answer x) hh, hblocked]
    exact holdBack_congr fun _ _ => rfl

/-- Settles O10: every wait point is a read of 0xFE02, which waits again. -/
theorem unansweredRequestBlocksTheEngine : Obligations.UnansweredRequestBlocksTheEngine := by
  intro s p hh hw hin
  have hunanswered : (s.clearWait.inFlight p).input = [] := by rw [State.input_inFlight, State.input_clearWait, hin]
  rw [step_waiting hh hw, goOnFrom_unanswered hunanswered, holdBack_blocked s (State.wait_waitAt _ p)]
  simp [State.blockedAt, ← hw]

end Sys2Proof.Proofs
end

section
/-! Decoding and encoding (R82, R84, R86): what an instruction's word carries, format by format, read both ways. -/

namespace Sys2Proof.Laws

open Sys2Proof.Machine

/-! The ranges of R83. -/

/-- An `n`-bit field lies in every range that holds all the signed values of its width. -/
theorem fieldInRange_of_width {n : Nat} {lo hi : Int} (f : BitVec n) (hlo : lo ≤ -2 ^ (n - 1))
    (hhi : 2 ^ (n - 1) ≤ hi + 1) : fieldInRange f lo hi = true := by
  have hmin := BitVec.le_toInt f
  have hmax := BitVec.toInt_lt (x := f)
  simp only [fieldInRange, Bool.and_eq_true, decide_eq_true_eq]
  omega

/-! One field of a word, cut out and placed again: a mask. -/

theorem place_extractLsb' (ir : Word) (pos n : Nat) :
    place (ir.extractLsb' pos n) pos = ir &&& place (BitVec.allOnes n) pos := by
  ext k hk
  by_cases hpos : pos ≤ k
  · simp [getElem_place, hk, hpos, BitVec.getLsbD_eq_getElem, Bool.and_comm]
  · simp [getElem_place, hpos]

theorem place_opField (ir : Word) : place (opField ir) 12 = ir &&& 0xF000 := place_extractLsb' ir 12 4

theorem place_fieldA (ir : Word) : place (regBits (fieldA ir)) 9 = ir &&& 0x0E00 := by
  rw [fieldA, regBits_regOfBits, place_extractLsb']
  rfl

theorem place_fieldB (ir : Word) : place (regBits (fieldB ir)) 6 = ir &&& 0x01C0 := by
  rw [fieldB, regBits_regOfBits, place_extractLsb']
  rfl

theorem place_fieldC (ir : Word) : place (regBits (fieldC ir)) 0 = ir &&& 0x0007 := by
  rw [fieldC, regBits_regOfBits, place_extractLsb']
  rfl

theorem place_fieldNzp (ir : Word) : place (fieldNzp ir) 9 = ir &&& 0x0E00 := place_extractLsb' ir 9 3

theorem place_fieldForm (ir : Word) : place (fieldForm ir) 5 = ir &&& 0x0020 := place_extractLsb' ir 5 1

theorem place_fieldPcForm (ir : Word) : place (fieldPcForm ir) 11 = ir &&& 0x0800 := place_extractLsb' ir 11 1

theorem place_fieldImm5 (ir : Word) : place (fieldImm5 ir) 0 = ir &&& 0x001F := place_extractLsb' ir 0 5

theorem place_fieldOff6 (ir : Word) : place (fieldOff6 ir) 0 = ir &&& 0x003F := place_extractLsb' ir 0 6

theorem place_fieldOff9 (ir : Word) : place (fieldOff9 ir) 0 = ir &&& 0x01FF := place_extractLsb' ir 0 9

theorem place_fieldOff11 (ir : Word) : place (fieldOff11 ir) 0 = ir &&& 0x07FF := place_extractLsb' ir 0 11

theorem place_fieldVect8 (ir : Word) : place (fieldVect8 ir) 0 = ir &&& 0x00FF := place_extractLsb' ir 0 8

theorem place_fieldRest (ir : Word) : place (fieldRest ir) 0 = ir &&& 0x0FFF := place_extractLsb' ir 0 12

/-! The formats of R82, with every ignored bit 0: `fields_…` reads a word of a format, `…_fields` writes one from the fields
of any word. -/

/-- OPR: ADD and AND in register form. -/
def wordOpr (op : BitVec 4) (a b c : Reg) : Word :=
  place op 12 ||| place (regBits a) 9 ||| place (regBits b) 6 ||| place (regBits c) 0

/-- OPI: ADD and AND in immediate form. -/
def wordOpi (op : BitVec 4) (a b : Reg) (imm : BitVec 5) : Word :=
  place op 12 ||| place (regBits a) 9 ||| place (regBits b) 6 ||| place 1#1 5 ||| place imm 0

/-- UN: NOT. -/
def wordUn (op : BitVec 4) (a b : Reg) : Word := place op 12 ||| place (regBits a) 9 ||| place (regBits b) 6

/-- BRF: BR. -/
def wordBrf (op : BitVec 4) (nzp : BitVec 3) (off : BitVec 9) : Word := place op 12 ||| place nzp 9 ||| place off 0

/-- JR and JLR: JMP and JSRR. -/
def wordJr (op : BitVec 4) (b : Reg) : Word := place op 12 ||| place (regBits b) 6

/-- JL: JSR. -/
def wordJl (op : BitVec 4) (off : BitVec 11) : Word := place op 12 ||| place 1#1 11 ||| place off 0

/-- PCR: LD, LDI, LEA, ST and STI. -/
def wordPcr (op : BitVec 4) (a : Reg) (off : BitVec 9) : Word := place op 12 ||| place (regBits a) 9 ||| place off 0

/-- BASE: LDR and STR. -/
def wordBase (op : BitVec 4) (a b : Reg) (off : BitVec 6) : Word :=
  place op 12 ||| place (regBits a) 9 ||| place (regBits b) 6 ||| place off 0

/-- NOARG and RES: RTI and the unknown opcode, with the bits they record (R200). -/
def wordRest (op : BitVec 4) (x : BitVec 12) : Word := place op 12 ||| place x 0

/-- TRP: TRAP. -/
def wordTrp (op : BitVec 4) (vect : BitVec 8) : Word := place op 12 ||| place vect 0

section
variable (op : BitVec 4) (a b c : Reg)

theorem fields_wordOpr : fieldForm (wordOpr op a b c) = 0 ∧ fieldA (wordOpr op a b c) = a ∧
    fieldB (wordOpr op a b c) = b ∧ fieldC (wordOpr op a b c) = c := by
  simp [wordOpr, fieldForm, fieldA, fieldB, fieldC, BitVec.extractLsb'_or, extract_place_same, extract_place_apart]

theorem fields_wordOpi (imm : BitVec 5) : fieldForm (wordOpi op a b imm) = 1 ∧ fieldA (wordOpi op a b imm) = a ∧
    fieldB (wordOpi op a b imm) = b ∧ fieldImm5 (wordOpi op a b imm) = imm := by
  simp [wordOpi, fieldForm, fieldA, fieldB, fieldImm5, BitVec.extractLsb'_or, extract_place_same, extract_place_apart]

theorem fields_wordUn : fieldA (wordUn op a b) = a ∧ fieldB (wordUn op a b) = b := by
  simp [wordUn, fieldA, fieldB, BitVec.extractLsb'_or, extract_place_same, extract_place_apart]

theorem fields_wordBrf (nzp : BitVec 3) (off : BitVec 9) :
    fieldNzp (wordBrf op nzp off) = nzp ∧ fieldOff9 (wordBrf op nzp off) = off := by
  simp [wordBrf, fieldNzp, fieldOff9, BitVec.extractLsb'_or, extract_place_same, extract_place_apart]

theorem fields_wordJr : fieldPcForm (wordJr op b) = 0 ∧ fieldB (wordJr op b) = b := by
  simp [wordJr, fieldPcForm, fieldB, BitVec.extractLsb'_or, extract_place_same, extract_place_apart]

theorem fields_wordJl (off : BitVec 11) : fieldPcForm (wordJl op off) = 1 ∧ fieldOff11 (wordJl op off) = off := by
  simp [wordJl, fieldPcForm, fieldOff11, BitVec.extractLsb'_or, extract_place_same, extract_place_apart]

theorem fields_wordPcr (off : BitVec 9) : fieldA (wordPcr op a off) = a ∧ fieldOff9 (wordPcr op a off) = off := by
  simp [wordPcr, fieldA, fieldOff9, BitVec.extractLsb'_or, extract_place_same, extract_place_apart]

theorem fields_wordBase (off : BitVec 6) :
    fieldA (wordBase op a b off) = a ∧ fieldB (wordBase op a b off) = b ∧ fieldOff6 (wordBase op a b off) = off := by
  simp [wordBase, fieldA, fieldB, fieldOff6, BitVec.extractLsb'_or, extract_place_same, extract_place_apart]

theorem fields_wordRest (x : BitVec 12) : fieldRest (wordRest op x) = x := by
  simp [wordRest, fieldRest, BitVec.extractLsb'_or, extract_place_same, extract_place_apart]

theorem fields_wordTrp (vect : BitVec 8) : fieldVect8 (wordTrp op vect) = vect := by
  simp [wordTrp, fieldVect8, BitVec.extractLsb'_or, extract_place_same, extract_place_apart]

end

/-- Bits of a mask that are 0 in the word may be left out of it. -/
theorem and_or_of_and_eq_zero {ir mask zeros : Word} (h : ir &&& zeros = 0) : ir &&& (mask ||| zeros) = ir &&& mask := by
  rw [BitVec.and_or_distrib_left, h]
  exact BitVec.or_zero

section
variable {ir : Word} {op : BitVec 4}

theorem wordOpr_fields (hop : opField ir = op) (hform : fieldForm ir = 0) :
    wordOpr op (fieldA ir) (fieldB ir) (fieldC ir) = ir &&& 0xFFE7 := by
  have hbit : ir &&& 0x0020 = 0 := by rw [← place_fieldForm, hform]; rfl
  simp only [wordOpr, ← hop, place_opField, place_fieldA, place_fieldB, place_fieldC, ← BitVec.and_or_distrib_left]
  exact (and_or_of_and_eq_zero hbit).symm

theorem wordOpi_fields (hop : opField ir = op) (hform : fieldForm ir = 1) :
    wordOpi op (fieldA ir) (fieldB ir) (fieldImm5 ir) = ir &&& 0xFFFF := by
  have hbit : place 1#1 5 = ir &&& 0x0020 := by rw [← place_fieldForm, hform]; rfl
  simp only [wordOpi, ← hop, place_opField, place_fieldA, place_fieldB, hbit, place_fieldImm5,
    ← BitVec.and_or_distrib_left]
  rfl

theorem wordUn_fields (hop : opField ir = op) : wordUn op (fieldA ir) (fieldB ir) = ir &&& 0xFFC0 := by
  simp only [wordUn, ← hop, place_opField, place_fieldA, place_fieldB, ← BitVec.and_or_distrib_left]
  rfl

theorem wordBrf_fields (hop : opField ir = op) : wordBrf op (fieldNzp ir) (fieldOff9 ir) = ir &&& 0xFFFF := by
  simp only [wordBrf, ← hop, place_opField, place_fieldNzp, place_fieldOff9, ← BitVec.and_or_distrib_left]
  rfl

theorem wordJr_fields (hop : opField ir = op) : wordJr op (fieldB ir) = ir &&& 0xF1C0 := by
  simp only [wordJr, ← hop, place_opField, place_fieldB, ← BitVec.and_or_distrib_left]
  rfl

/-- JSRR reads its selector bit too. -/
theorem wordJlr_fields (hop : opField ir = op) (hform : fieldPcForm ir = 0) : wordJr op (fieldB ir) = ir &&& 0xF9C0 := by
  have hbit : ir &&& 0x0800 = 0 := by rw [← place_fieldPcForm, hform]; rfl
  exact (wordJr_fields hop).trans (and_or_of_and_eq_zero hbit).symm

theorem wordJl_fields (hop : opField ir = op) (hform : fieldPcForm ir = 1) :
    wordJl op (fieldOff11 ir) = ir &&& 0xFFFF := by
  have hbit : place 1#1 11 = ir &&& 0x0800 := by rw [← place_fieldPcForm, hform]; rfl
  simp only [wordJl, ← hop, place_opField, hbit, place_fieldOff11, ← BitVec.and_or_distrib_left]
  rfl

theorem wordPcr_fields (hop : opField ir = op) : wordPcr op (fieldA ir) (fieldOff9 ir) = ir &&& 0xFFFF := by
  simp only [wordPcr, ← hop, place_opField, place_fieldA, place_fieldOff9, ← BitVec.and_or_distrib_left]
  rfl

theorem wordBase_fields (hop : opField ir = op) : wordBase op (fieldA ir) (fieldB ir) (fieldOff6 ir) = ir &&& 0xFFFF := by
  simp only [wordBase, ← hop, place_opField, place_fieldA, place_fieldB, place_fieldOff6, ← BitVec.and_or_distrib_left]
  rfl

theorem wordRest_fields (hop : opField ir = op) : wordRest op (fieldRest ir) = ir &&& 0xFFFF := by
  simp only [wordRest, ← hop, place_opField, place_fieldRest, ← BitVec.and_or_distrib_left]
  rfl

theorem wordTrp_fields (hop : opField ir = op) : wordTrp op (fieldVect8 ir) = ir &&& 0xF0FF := by
  simp only [wordTrp, ← hop, place_opField, place_fieldVect8, ← BitVec.and_or_distrib_left]
  rfl

end

/-! What a word carries. -/

/-- The fields of `ir` hold the operands of `i`, and the bit that picks its form where R84 has one. -/
def HasOperands (ir : Word) : Instr → Prop
  | .addReg a b c | .andReg a b c => fieldForm ir = 0 ∧ fieldA ir = a ∧ fieldB ir = b ∧ fieldC ir = c
  | .addImm a b imm | .andImm a b imm => fieldForm ir = 1 ∧ fieldA ir = a ∧ fieldB ir = b ∧ fieldImm5 ir = imm
  | .not a b => fieldA ir = a ∧ fieldB ir = b
  | .br nzp off => fieldNzp ir = nzp ∧ fieldOff9 ir = off
  | .jmp b => fieldB ir = b
  | .jsr off => fieldPcForm ir = 1 ∧ fieldOff11 ir = off
  | .jsrr b => fieldPcForm ir = 0 ∧ fieldB ir = b
  | .ld a off | .ldi a off | .lea a off | .st a off | .sti a off => fieldA ir = a ∧ fieldOff9 ir = off
  | .ldr a b off | .str a b off => fieldA ir = a ∧ fieldB ir = b ∧ fieldOff6 ir = off
  | .rti x | .unknown x => fieldRest ir = x
  | .trap vect => fieldVect8 ir = vect

/-- `ir` is a word of `i` (R82, R84): it has the opcode and the operands of `i`; the bits R86 ignores may be any. -/
structure Carries (ir : Word) (i : Instr) : Prop where
  opcode : opField ir = opcodeOf i
  operands : HasOperands ir i

theorem opField_encode (i : Instr) : opField (encode i) = opcodeOf i := by
  cases i with
  | addReg a b c => exact OpcodeField.addReg a b c
  | addImm a b imm => exact OpcodeField.addImm a b imm
  | andReg a b c => exact OpcodeField.andReg a b c
  | andImm a b imm => exact OpcodeField.andImm a b imm
  | not a b => exact OpcodeField.not a b
  | br nzp off => exact OpcodeField.br nzp off
  | jmp b => exact OpcodeField.jmp b
  | jsr off => exact OpcodeField.jsr off
  | jsrr b => exact OpcodeField.jsrr b
  | ld a off => exact OpcodeField.ld a off
  | ldi a off => exact OpcodeField.ldi a off
  | ldr a b off => exact OpcodeField.ldr a b off
  | lea a off => exact OpcodeField.lea a off
  | st a off => exact OpcodeField.st a off
  | sti a off => exact OpcodeField.sti a off
  | str a b off => exact OpcodeField.str a b off
  | rti x => exact OpcodeField.rti x
  | trap vect => exact OpcodeField.trap vect
  | unknown x => exact OpcodeField.unknown x

theorem hasOperands_encode (i : Instr) : HasOperands (encode i) i := by
  cases i with
  | addReg a b c | andReg a b c => exact fields_wordOpr _ a b c
  | addImm a b imm | andImm a b imm => exact fields_wordOpi _ a b imm
  | not a b => exact fields_wordUn _ a b
  | br nzp off => exact fields_wordBrf _ nzp off
  | jmp b => exact (fields_wordJr _ b).2
  | jsr off => exact fields_wordJl _ off
  | jsrr b => exact fields_wordJr _ b
  | ld a off | ldi a off | lea a off | st a off | sti a off => exact fields_wordPcr _ a off
  | ldr a b off | str a b off => exact fields_wordBase _ a b off
  | rti x | unknown x => exact fields_wordRest _ x
  | trap vect => exact fields_wordTrp _ vect

theorem carries_encode (i : Instr) : Carries (encode i) i := ⟨opField_encode i, hasOperands_encode i⟩

/-- A word decodes to the instruction that it carries. -/
theorem decode_of_carries {ir : Word} {i : Instr} (h : Carries ir i) : decode ir = i := by
  obtain ⟨hop, h⟩ := h
  cases i with
  | addReg a b c | andReg a b c =>
    obtain ⟨hform, rfl, rfl, rfl⟩ := h
    simp [decode, hop, opcodeOf, hform]
  | addImm a b imm | andImm a b imm =>
    obtain ⟨hform, rfl, rfl, rfl⟩ := h
    simp [decode, hop, opcodeOf, hform]
  | jsr off | jsrr b =>
    obtain ⟨hform, rfl⟩ := h
    simp [decode, hop, opcodeOf, hform]
  | ldr a b off | str a b off =>
    obtain ⟨rfl, rfl, rfl⟩ := h
    simp [decode, hop, opcodeOf]
  | not | br | ld | ldi | lea | st | sti =>
    obtain ⟨rfl, rfl⟩ := h
    simp [decode, hop, opcodeOf]
  | jmp | rti | trap | unknown =>
    cases h
    simp [decode, hop, opcodeOf]

/-- TRAP's opcode is the one that is left (R84). -/
theorem opcode_eq_trap {op : BitVec 4} (h0 : op ≠ 0x0) (h1 : op ≠ 0x1) (h2 : op ≠ 0x2) (h3 : op ≠ 0x3) (h4 : op ≠ 0x4)
    (h5 : op ≠ 0x5) (h6 : op ≠ 0x6) (h7 : op ≠ 0x7) (h8 : op ≠ 0x8) (h9 : op ≠ 0x9) (hA : op ≠ 0xA) (hB : op ≠ 0xB)
    (hC : op ≠ 0xC) (hD : op ≠ 0xD) (hE : op ≠ 0xE) : op = 0xF := by
  bv_omega

theorem eq_zero_of_ne_one {bit : BitVec 1} (h : bit ≠ 1) : bit = 0 := by
  bv_omega

/-- Every word carries the instruction it decodes to (R85); the cases are the sixteen opcodes, 0x0 to 0xF. -/
theorem carries_decode (ir : Word) : Carries ir (decode ir) := by
  unfold decode
  split
  case h_2 hop | h_6 hop =>
    split
    case isTrue hform => exact ⟨hop, hform, rfl, rfl, rfl⟩
    case isFalse hform => exact ⟨hop, eq_zero_of_ne_one hform, rfl, rfl, rfl⟩
  case h_5 hop =>
    split
    case isTrue hform => exact ⟨hop, hform, rfl⟩
    case isFalse hform => exact ⟨hop, eq_zero_of_ne_one hform, rfl⟩
  case h_7 hop | h_8 hop => exact ⟨hop, rfl, rfl, rfl⟩
  case h_1 hop | h_3 hop | h_4 hop | h_10 hop | h_11 hop | h_12 hop | h_15 hop => exact ⟨hop, rfl, rfl⟩
  case h_9 hop | h_13 hop | h_14 hop => exact ⟨hop, rfl⟩
  case h_16 => exact ⟨by apply opcode_eq_trap <;> assumption, rfl⟩

/-! The ignored bits of R86. -/

/-- What `significantBits` says, by the instruction. -/
def operandBits : Instr → Word
  | .addReg _ _ _ | .andReg _ _ _ => 0xFFE7
  | .not _ _ => 0xFFC0
  | .jmp _ => 0xF1C0
  | .jsrr _ => 0xF9C0
  | .trap _ => 0xF0FF
  | _ => 0xFFFF

/-- An instruction's word is any of the words that carry it, without the bits R86 ignores. -/
theorem encode_of_carries {ir : Word} {i : Instr} (h : Carries ir i) : encode i = ir &&& operandBits i := by
  obtain ⟨hop, h⟩ := h
  cases i with
  | addReg a b c | andReg a b c =>
    obtain ⟨hform, rfl, rfl, rfl⟩ := h
    exact wordOpr_fields hop hform
  | addImm a b imm | andImm a b imm =>
    obtain ⟨hform, rfl, rfl, rfl⟩ := h
    exact wordOpi_fields hop hform
  | not a b =>
    obtain ⟨rfl, rfl⟩ := h
    exact wordUn_fields hop
  | br nzp off =>
    obtain ⟨rfl, rfl⟩ := h
    exact wordBrf_fields hop
  | jmp b =>
    cases h
    exact wordJr_fields hop
  | jsr off =>
    obtain ⟨hform, rfl⟩ := h
    exact wordJl_fields hop hform
  | jsrr b =>
    obtain ⟨hform, rfl⟩ := h
    exact wordJlr_fields hop hform
  | ld a off | ldi a off | lea a off | st a off | sti a off =>
    obtain ⟨rfl, rfl⟩ := h
    exact wordPcr_fields hop
  | ldr a b off | str a b off =>
    obtain ⟨rfl, rfl, rfl⟩ := h
    exact wordBase_fields hop
  | rti x | unknown x =>
    cases h
    exact wordRest_fields hop
  | trap vect =>
    cases h
    exact wordTrp_fields hop

theorem extractLsb'_eq_one_iff (ir : Word) (pos : Nat) : ir.extractLsb' pos 1 = 1 ↔ ir.getLsbD pos = true := by
  simp [BitVec.eq_of_getLsbD_eq_iff]

/-- R86's table, with the bit that picks the form read as a field. -/
theorem significantBits_of_carries {ir : Word} {i : Instr} (h : Carries ir i) : significantBits ir = operandBits i := by
  obtain ⟨hop, h⟩ := h
  simp only [significantBits, hop, ← extractLsb'_eq_one_iff]
  cases i with
  | addReg | andReg | addImm | andImm => simp [opcodeOf, operandBits, show ir.extractLsb' 5 1 = _ from h.1]
  | jsr | jsrr => simp [opcodeOf, operandBits, show ir.extractLsb' 11 1 = _ from h.1]
  | not | br | jmp | ld | ldi | ldr | lea | st | sti | str | rti | trap | unknown => simp [opcodeOf, operandBits]

/-! The word a loader places. -/

theorem decodeTableWord_eq {nbits : Nat} (h : nbits ≤ 16) (w : Nat) :
    decodeTableWord nbits w = some (decode (BitVec.ofNat 16 (w % 2 ^ nbits))) := by
  simp [decodeTableWord, decodeBytes, h]

end Sys2Proof.Laws

namespace Sys2Proof.Machine

/-! No operation is refused, and so no step is (R85). -/

section
variable {s : State} {r : Refusal}

theorem outputThen_ne_refused {e : OutputEvent} {k : State → Result} (hk : ∀ u, k u ≠ .refused r) :
    outputThen e s k ≠ .refused r := by
  rcases outputThen_cases e s k with ⟨_, h⟩ | ⟨_, _, h⟩ <;> rw [h]
  · nofun
  · exact hk _

theorem readThen_ne_refused {a : Word} {p : WaitPoint} {k : Word → State → Result} (hk : ∀ v u, k v u ≠ .refused r) :
    readThen a p s k ≠ .refused r := fun h =>
  have ⟨v, u, _, hv⟩ := readThen_refused h
  hk v u hv

theorem loadFrom_ne_refused {addr : Word} {a : Reg} : loadFrom addr a s ≠ .refused r :=
  readThen_ne_refused nofun

theorem loadIndirectFrom_ne_refused {addr : Word} {a : Reg} : loadIndirectFrom addr a s ≠ .refused r :=
  readThen_ne_refused fun _ _ => loadFrom_ne_refused

theorem storeIndirectFrom_ne_refused {addr : Word} {a : Reg} : storeIndirectFrom addr a s ≠ .refused r :=
  readThen_ne_refused nofun

theorem stringLoop_ne_refused {fuel : Nat} {a : Word} : stringLoop fuel a s ≠ .refused r := by
  induction fuel generalizing a s with
  | zero => nofun
  | succ fuel ih =>
    refine readThen_ne_refused fun w u => ?_
    split
    · nofun
    · exact outputThen_ne_refused fun _ => ih

theorem dispatchTrap_ne_refused {v : BitVec 8} : dispatchTrap v s ≠ .refused r := by
  rcases dispatchTrap_cases v s with ⟨_, h⟩ | ⟨_, h⟩ | ⟨_, h⟩ | ⟨_, h⟩ | ⟨_, h⟩ <;> rw [h]
  · nofun
  · exact outputThen_ne_refused nofun
  · exact stringLoop_ne_refused
  · exact outputThen_ne_refused nofun
  · nofun

theorem exec_ne_refused {i : Instr} : exec i s ≠ .refused r := by
  cases i with
  | ld | ldr => exact loadFrom_ne_refused
  | ldi => exact loadIndirectFrom_ne_refused
  | sti => exact storeIndirectFrom_ne_refused
  | trap => exact dispatchTrap_ne_refused
  | unknown => exact outputThen_ne_refused (k := fun u => .next u.halt) nofun
  | addReg | addImm | andReg | andImm | not | br | jmp | jsr | jsrr | lea | st | str | rti => nofun

theorem fetchFrom_ne_refused {addr : Word} : fetchFrom addr s ≠ .refused r :=
  readThen_ne_refused fun _ _ => exec_ne_refused

theorem goOnFrom_ne_refused {p : WaitPoint} : goOnFrom p s ≠ .refused r := by
  cases p with
  | fetch => exact fetchFrom_ne_refused
  | load => exact loadFrom_ne_refused
  | loadPointer => exact loadIndirectFrom_ne_refused
  | storePointer => exact storeIndirectFrom_ne_refused
  | string => exact stringLoop_ne_refused

end

end Sys2Proof.Machine

namespace Sys2Proof.Proofs

open Sys2Proof.Machine Sys2Proof.Laws

/-- Settles O3: an instruction's word carries it, and a word decodes to what it carries. -/
theorem decodeEncodeGivesTheInstructionBack : Obligations.DecodeEncodeGivesTheInstructionBack :=
  fun i _ => decode_of_carries (carries_encode i)

/-- Settles O4: every word carries what it decodes to, and is the word of that but for the bits of R86. -/
theorem encodeDecodeDropsOnlyIgnoredBits : Obligations.EncodeDecodeDropsOnlyIgnoredBits := by
  intro ir
  have hir := carries_decode ir
  rw [encode_of_carries hir, significantBits_of_carries hir]

/-- Settles O2: each range of R83 is that of its field's width. -/
theorem everyImmediateLiesInItsRange : Obligations.EveryImmediateLiesInItsRange := by
  intro i
  cases i with
  | addReg | andReg | not | jmp | jsrr | rti | unknown => rfl
  | addImm a b imm | andImm a b imm => exact fieldInRange_of_width imm (by decide) (by decide)
  | br nzp off =>
    have hnzp : nzp.toNat ≤ 7 := by omega
    simp [Instr.wellFormed, hnzp, fieldInRange_of_width off (lo := -256) (hi := 255) (by decide) (by decide)]
  | jsr off | ld _ off | ldi _ off | lea _ off | st _ off | sti _ off | ldr _ _ off | str _ _ off =>
    exact fieldInRange_of_width off (by decide) (by decide)
  | trap vect => exact decide_eq_true (by omega)

/-- Settles O5: words that agree but for ignored bits have one encoded form (O4), which decodes to both (O3). -/
theorem ignoredBitsHaveNoEffect : Obligations.IgnoredBitsHaveNoEffect := by
  intro ir ir' h
  have decode_canonical (w : Word) : decode (encode (decode w)) = decode w :=
    decodeEncodeGivesTheInstructionBack _ (everyImmediateLiesInItsRange _)
  rw [← decode_canonical ir, ← decode_canonical ir', encodeDecodeDropsOnlyIgnoredBits ir,
    encodeDecodeDropsOnlyIgnoredBits ir', h]

/-- Settles O6, word by word. -/
theorem wordsOfTheSpecDecode : Obligations.WordsOfTheSpecDecode := by
  unfold Obligations.WordsOfTheSpecDecode
  decide

/-- Settles O13: the fetch reads back the word just written, which is what the decoder is given. -/
theorem placedWordIsExecutedNext : Obligations.PlacedWordIsExecutedNext := by
  intro s nbits w hn hpc
  have hstored : (s.withFetchWord nbits w).mem.read s.pc = BitVec.ofNat 16 (w % 2 ^ nbits) := Memory.read_write_same _ _ _
  have hready : (s.withFetchWord nbits w).Ready := ⟨rfl, rfl⟩
  refine ⟨_, decodeTableWord_eq hn w, ?_⟩
  rw [← hstored]
  exact step_ordinary hready hpc

/-- Settles O50: a halted engine stays, and what a running one does is never refused. -/
theorem noStepIsRefused : Obligations.NoStepIsRefused := by
  intro s r h
  rcases step_cases s with ⟨_, hs⟩ | ⟨_, _, hs⟩ | ⟨p, _, _, hs⟩ <;> rw [hs] at h
  · cases h
  · exact fetchFrom_ne_refused (holdBack_refused h)
  · exact goOnFrom_ne_refused (holdBack_refused h)

end Sys2Proof.Proofs
end

section
/-! The operate instructions (40_operate.md): each ends in `setcc`, whose frame is said here once, and the bit that picks the
form of ADD and AND, read as a field. -/

namespace Sys2Proof.Machine

/-- R26 with its frame; the flags that the statement writes out are `ccOf`. -/
theorem writesResult_setcc (s : State) (r : Reg) (v : Word) : WritesResult s (s.setcc r v) r v :=
  have others_kept : RegsKeptBut r s (s.setcc r v) := fun _ hq => s.reg_setcc_other v hq
  have memory_kept : MemoryKept s (s.setcc r v) := fun _ => rfl
  have ports_kept : PortsKept s (s.setcc r v) := ⟨rfl, rfl, rfl, rfl, rfl⟩
  ⟨s.reg_setcc_same r v, others_kept, s.cc_setcc r v, s.pc_setcc r v, memory_kept, ports_kept⟩

/-- An instruction that ends in `setcc` completes with that result. -/
theorem exists_writesResult_of_exec {i : Instr} {s : State} {r : Reg} {v : Word} (h : exec i s = .next (s.setcc r v)) :
    ∃ t, exec i s = .next t ∧ WritesResult s t r v :=
  ⟨_, h, writesResult_setcc s r v⟩

section
variable (a b c : Reg) (imm : BitVec 5) (s : State)

theorem exec_addReg : exec (.addReg a b c) s = .next (s.setcc a (s.reg b + s.reg c)) := rfl
theorem exec_addImm : exec (.addImm a b imm) s = .next (s.setcc a (s.reg b + sext imm)) := rfl
theorem exec_andReg : exec (.andReg a b c) s = .next (s.setcc a (s.reg b &&& s.reg c)) := rfl
theorem exec_andImm : exec (.andImm a b imm) s = .next (s.setcc a (s.reg b &&& sext imm)) := rfl
theorem exec_not : exec (.not a b) s = .next (s.setcc a (~~~ s.reg b)) := rfl

end

end Sys2Proof.Machine

namespace Sys2Proof.Laws

theorem fieldForm_of_bit_set {ir : Word} (h : ir.getLsbD 5 = true) : fieldForm ir = 1 :=
  (extractLsb'_eq_one_iff ir 5).2 h

theorem fieldForm_of_bit_clear {ir : Word} (h : ir.getLsbD 5 = false) : fieldForm ir = 0 :=
  eq_zero_of_ne_one fun hone => Bool.false_ne_true (h.symm.trans ((extractLsb'_eq_one_iff ir 5).1 hone))

end Sys2Proof.Laws

namespace Sys2Proof.Proofs

open Sys2Proof.Machine Sys2Proof.Laws

/-- Settles O20: both forms end in `setcc`, and a word carries the form that bit 5 picks. -/
theorem addWritesTheSum : Obligations.AddWritesTheSum := by
  refine ⟨fun a b c s => exists_writesResult_of_exec (exec_addReg a b c s),
    fun a b imm s => exists_writesResult_of_exec (exec_addImm a b imm s), fun ir hop => ⟨fun hbit => ?_, fun hbit => ?_⟩⟩
  · exact decode_of_carries ⟨hop, fieldForm_of_bit_clear hbit, rfl, rfl, rfl⟩
  · exact decode_of_carries ⟨hop, fieldForm_of_bit_set hbit, rfl, rfl, rfl⟩

/-- Settles O21: both forms end in `setcc`, and a word carries the form that bit 5 picks. -/
theorem andWritesTheConjunction : Obligations.AndWritesTheConjunction := by
  refine ⟨fun a b c s => exists_writesResult_of_exec (exec_andReg a b c s),
    fun a b imm s => exists_writesResult_of_exec (exec_andImm a b imm s), fun ir hop => ⟨fun hbit => ?_, fun hbit => ?_⟩⟩
  · exact decode_of_carries ⟨hop, fieldForm_of_bit_clear hbit, rfl, rfl, rfl⟩
  · exact decode_of_carries ⟨hop, fieldForm_of_bit_set hbit, rfl, rfl, rfl⟩

/-- Settles O22: NOT ends in `setcc`, and a word carries it by its opcode alone, whatever bits 5-0 are. -/
theorem notWritesTheComplement : Obligations.NotWritesTheComplement :=
  ⟨fun a b s => exists_writesResult_of_exec (exec_not a b s), fun _ hop => decode_of_carries ⟨hop, rfl, rfl⟩⟩

end Sys2Proof.Proofs
end

section
/-! Control transfer (41_control.md): each ends in a write of `pc`, JSR and JSRR after the link in R7; their frames are said here
once. The bit that picks JSR or JSRR is read as a field. -/

namespace Sys2Proof.Machine

section
variable (s : State) (target : Word)

theorem goesTo_setPc : GoesTo s (s.setPc target) target :=
  have memory_kept : MemoryKept s (s.setPc target) := fun _ => rfl
  have ports_kept : PortsKept s (s.setPc target) := ⟨rfl, rfl, rfl, rfl, rfl⟩
  ⟨s.pc_setPc target, s.cc_setPc target, memory_kept, ports_kept⟩

/-- A register written before the branch is outside the frame of the branch. -/
theorem goesTo_setReg_setPc (r : Reg) (v : Word) : GoesTo s ((s.setReg r v).setPc target) target :=
  goesTo_setPc (s.setReg r v) target

end

section
variable {i : Instr} {s : State} {target : Word}

/-- An instruction that ends in a write of `pc` alone. -/
theorem exists_goesTo_of_exec (h : exec i s = .next (s.setPc target)) :
    ∃ t, exec i s = .next t ∧ RegsKept s t ∧ GoesTo s t target :=
  ⟨_, h, s.reg_setPc target, goesTo_setPc s target⟩

/-- An instruction that links in R7 and then writes `pc`. -/
theorem exists_link_goesTo_of_exec (h : exec i s = .next ((s.setReg .r7 s.pc).setPc target)) :
    ∃ t, exec i s = .next t ∧ t.reg .r7 = s.pc ∧ RegsKeptBut .r7 s t ∧ GoesTo s t target :=
  have others_kept : RegsKeptBut .r7 s ((s.setReg .r7 s.pc).setPc target) := fun _ hq => s.reg_setReg_other s.pc hq
  ⟨_, h, s.reg_setReg_same .r7 s.pc, others_kept, goesTo_setReg_setPc s target .r7 s.pc⟩

end

section
variable (b : Reg) (s : State)

theorem ccMatches_iff (nzp : BitVec 3) : ccMatches nzp s = true ↔ s.cc &&& nzp ≠ 0 := bne_iff_ne

/-- R120: where the mask misses `cc`, BR writes `pc` back as it is. -/
theorem exec_br (nzp : BitVec 3) (off : BitVec 9) :
    exec (.br nzp off) s = .next (s.setPc (if s.cc &&& nzp = 0 then s.pc else s.pc + sext off)) := by
  simp only [exec, execBr, ccMatches_iff, ite_not, pcRelative]

theorem exec_jmp : exec (.jmp b) s = .next (s.setPc (s.reg b)) := rfl

theorem exec_jsr (off : BitVec 11) : exec (.jsr off) s = .next ((s.setReg .r7 s.pc).setPc (s.pc + sext off)) := rfl

/-- R123: the base is read after the link is written, so where it is R7 it reads as the link (decision D11). -/
theorem exec_jsrr :
    exec (.jsrr b) s = .next ((s.setReg .r7 s.pc).setPc (if b = .r7 then s.pc else s.reg b)) := by
  rw [← s.reg_setReg .r7 b s.pc]
  rfl

end

end Sys2Proof.Machine

namespace Sys2Proof.Laws

theorem extractLsb'_eq_zero_iff (ir : Word) (pos : Nat) : ir.extractLsb' pos 1 = 0 ↔ ir.getLsbD pos = false := by
  simp [BitVec.eq_of_getLsbD_eq_iff]

theorem fieldPcForm_eq_one_iff (ir : Word) : fieldPcForm ir = 1 ↔ ir.getLsbD 11 = true := extractLsb'_eq_one_iff ir 11

theorem fieldPcForm_eq_zero_iff (ir : Word) : fieldPcForm ir = 0 ↔ ir.getLsbD 11 = false := extractLsb'_eq_zero_iff ir 11

end Sys2Proof.Laws

namespace Sys2Proof.Proofs

open Sys2Proof.Machine Sys2Proof.Laws

/-- Settles O24: BR ends in a write of `pc`, taken or not, and a word carries it by its opcode alone. -/
theorem brBranchesOnTheMask : Obligations.BrBranchesOnTheMask :=
  ⟨fun nzp off s => exists_goesTo_of_exec (exec_br s nzp off), fun _ hop => decode_of_carries ⟨hop, rfl, rfl⟩⟩

/-- Settles O25: JMP ends in a write of `pc`, and a word carries it by its opcode alone, whatever the ignored bits are. -/
theorem jmpGoesToTheRegister : Obligations.JmpGoesToTheRegister :=
  ⟨fun b s => exists_goesTo_of_exec (exec_jmp b s), fun _ hop => decode_of_carries ⟨hop, rfl⟩⟩

/-- Settles O26: JSR links and then writes `pc`, and a word with bit 11 set carries it. -/
theorem jsrLinksAndBranches : Obligations.JsrLinksAndBranches :=
  ⟨fun off s => exists_link_goesTo_of_exec (exec_jsr s off),
    fun ir hop hbit => decode_of_carries ⟨hop, (fieldPcForm_eq_one_iff ir).2 hbit, rfl⟩⟩

/-- Settles O27: JSRR links, then writes `pc` with its base as it reads after the link, and a word with bit 11 clear carries
it. -/
theorem jsrrLinksThenReadsItsBase : Obligations.JsrrLinksThenReadsItsBase :=
  ⟨fun b s => exists_link_goesTo_of_exec (exec_jsrr b s),
    fun ir hop hbit => decode_of_carries ⟨hop, (fieldPcForm_eq_zero_iff ir).2 hbit, rfl⟩⟩

end Sys2Proof.Proofs
end

section
/-! Loads (42_load.md). LD and LDR are one load from the address they compute; LDI is a load from the pointer that its first
read gives. What one load comes to is said here once, by its address and the host's answer. -/

namespace Sys2Proof.Machine

/-- `r` is how the load of the word at `addr` into register `a` ends in `s` (R53 to R56): for each kind of address, and at
0xFE02 for each answer of the host. -/
structure Loads (r : Result) (addr : Word) (a : Reg) (s : State) : Prop where
  ordinary : Ordinary addr → ∃ t, r = .next t ∧ WritesResult s t a (s.mem.read addr)
  status : addr = 0xFE00 → ∃ t, r = .next t ∧ WritesResult s t a Config.kbsrReady
  byte : ∀ b rest, addr = 0xFE02 → s.input = .byte b :: rest → b ≠ 0x03 →
    ∃ t, r = .next t ∧ WritesResult { s with input := rest } t a ((translateInput b).setWidth 16)
  cancel : ∀ rest, addr = 0xFE02 → s.input = .byte 0x03 :: rest → r = .fault (.inputCancelled 0xFE02 s.output)
  fail : ∀ rest, addr = 0xFE02 → s.input = .fail :: rest → r = .fault (.ioFailure .input s.output)
  unanswered : addr = 0xFE02 → s.input = [] → r = .next { s with wait := some (.load a) }

/-- A load whose read gives a value ends in `setcc`. -/
theorem exists_writesResult_of_loadFrom {addr v : Word} {s u : State} (a : Reg) (h : memRead addr s = .value v u) :
    ∃ t, loadFrom addr a s = .next t ∧ WritesResult u t a v :=
  ⟨u.setcc a v, readThen_value h, writesResult_setcc u a v⟩

theorem loads_loadFrom (addr : Word) (a : Reg) (s : State) : Loads (loadFrom addr a s) addr a s where
  ordinary h := exists_writesResult_of_loadFrom a (memRead_ordinary h.1 h.2 s)
  status h := h ▸ exists_writesResult_of_loadFrom a (memRead_status s)
  byte _ _ h hin hb := h ▸ exists_writesResult_of_loadFrom a (memRead_data_byte hin hb)
  cancel _ h hin := by
    subst h
    exact readThen_stops (memRead_data_cancel hin)
  fail _ h hin := h ▸ readThen_stops (memRead_data_fail hin)
  unanswered h hin := h ▸ readThen_waits (memRead_data_unanswered hin)

/-- A zero-extended input byte is no device address. -/
theorem ordinary_byte (b : Byte) : Ordinary (b.setWidth 16) := by
  constructor <;> bv_omega

section
variable (a b : Reg) (off : BitVec 9) (s : State)

theorem exec_lea : exec (.lea a off) s = .next (s.setcc a (s.pc + sext off)) := rfl

theorem loads_exec_ld : Loads (exec (.ld a off) s) (s.pc + sext off) a s := loads_loadFrom _ a s

theorem loads_exec_ldr (off : BitVec 6) : Loads (exec (.ldr a b off) s) (s.reg b + sext off) a s := loads_loadFrom _ a s

theorem exec_ldi :
    exec (.ldi a off) s = readThen (s.pc + sext off) (.loadPointer a) s fun p u => loadFrom p a u := rfl

end

section
variable {off : BitVec 9} {s : State} (a : Reg)

/-- LDI is a load from its pointer, in the state that reading the pointer leaves. -/
theorem loads_exec_ldi_of_pointer {p : Word} {u : State} (h : memRead (s.pc + sext off) s = .value p u) :
    Loads (exec (.ldi a off) s) p a u := by
  rw [exec_ldi, readThen_value h]
  exact loads_loadFrom p a u

theorem loads_exec_ldi_ordinary (h : Ordinary (s.pc + sext off)) :
    Loads (exec (.ldi a off) s) (s.mem.read (s.pc + sext off)) a s :=
  loads_exec_ldi_of_pointer a (memRead_ordinary h.1 h.2 s)

theorem loads_exec_ldi_status (h : s.pc + sext off = 0xFE00) : Loads (exec (.ldi a off) s) Config.kbsrReady a s :=
  loads_exec_ldi_of_pointer a (h ▸ memRead_status s)

theorem loads_exec_ldi_byte {b : Byte} {rest : List InputAnswer} (h : s.pc + sext off = 0xFE02)
    (hin : s.input = .byte b :: rest) (hb : b ≠ 0x03) :
    Loads (exec (.ldi a off) s) ((translateInput b).setWidth 16) a { s with input := rest } :=
  loads_exec_ldi_of_pointer a (h ▸ memRead_data_byte hin hb)

theorem exec_ldi_pointer_stops {f : Fault} (h : s.pc + sext off = 0xFE02) (hread : memRead 0xFE02 s = .stops f) :
    exec (.ldi a off) s = .fault f := by
  rw [exec_ldi, h, readThen_stops hread]

theorem exec_ldi_pointer_unanswered (h : s.pc + sext off = 0xFE02) (hin : s.input = []) :
    exec (.ldi a off) s = .next { s with wait := some (.loadPointer a) } := by
  rw [exec_ldi, h, readThen_waits (memRead_data_unanswered hin)]
  rfl

end

end Sys2Proof.Machine

namespace Sys2Proof.Proofs

open Sys2Proof.Machine Sys2Proof.Laws

/-- Settles O28: LD is one load from its address, and a word carries it by its opcode alone. -/
theorem ldLoadsPcRelative : Obligations.LdLoadsPcRelative :=
  ⟨fun a off s => (loads_exec_ld a off s).ordinary, fun a off s => (loads_exec_ld a off s).status,
    fun a off s => (loads_exec_ld a off s).byte, fun a off s => (loads_exec_ld a off s).cancel,
    fun a off s => (loads_exec_ld a off s).fail, fun a off s => (loads_exec_ld a off s).unanswered,
    fun _ hop => decode_of_carries ⟨hop, rfl, rfl⟩⟩

/-- Settles O29, by where the pointer is read: at an ordinary address and at 0xFE00 a load from the pointer is left; at 0xFE02
the pointer is a byte, so the load is from an ordinary address. -/
theorem ldiLoadsThroughThePointer : Obligations.LdiLoadsThroughThePointer := by
  refine ⟨fun a off s h => (loads_exec_ldi_ordinary a h).ordinary, fun a off s h => (loads_exec_ldi_ordinary a h).status,
    fun a off s b rest h => (loads_exec_ldi_ordinary a h).byte b rest,
    fun a off s rest h => (loads_exec_ldi_ordinary a h).cancel rest,
    fun a off s rest h => (loads_exec_ldi_ordinary a h).fail rest,
    fun a off s h => (loads_exec_ldi_ordinary a h).unanswered,
    fun a off s h => ?at_status,
    fun a off s b rest h hin hb => (loads_exec_ldi_byte a h hin hb).ordinary (ordinary_byte _),
    fun a off s rest h hin => exec_ldi_pointer_stops a h (memRead_data_cancel hin),
    fun a off s rest h hin => exec_ldi_pointer_stops a h (memRead_data_fail hin),
    fun a off s h hin => exec_ldi_pointer_unanswered a h hin,
    fun _ hop => decode_of_carries ⟨hop, rfl, rfl⟩⟩
  have hload := loads_exec_ldi_status a h
  split
  case isTrue h0 => exact hload.status h0
  case isFalse h0 =>
    split
    case isFalse h2 => exact hload.ordinary ⟨h0, h2⟩
    case isTrue h2 =>
      split
      case h_1 b rest hin =>
        split
        case isTrue hb => exact hload.cancel rest h2 (hb ▸ hin)
        case isFalse hb => exact hload.byte b rest h2 hin hb
      case h_2 rest hin => exact hload.fail rest h2 hin
      case h_3 hin => exact hload.unanswered h2 hin

/-- Settles O30: LDR is one load from its address, and a word carries it by its opcode alone. -/
theorem ldrLoadsBaseRelative : Obligations.LdrLoadsBaseRelative :=
  ⟨fun a b off s => (loads_exec_ldr a b s off).ordinary, fun a b off s => (loads_exec_ldr a b s off).status,
    fun a b off s => (loads_exec_ldr a b s off).byte, fun a b off s => (loads_exec_ldr a b s off).cancel,
    fun a b off s => (loads_exec_ldr a b s off).fail, fun a b off s => (loads_exec_ldr a b s off).unanswered,
    fun _ hop => decode_of_carries ⟨hop, rfl, rfl, rfl⟩⟩

/-- Settles O31: LEA ends in `setcc`, and a word carries it by its opcode alone. -/
theorem leaWritesTheAddress : Obligations.LeaWritesTheAddress :=
  ⟨fun a off s => exists_writesResult_of_exec (exec_lea a off s), fun _ hop => decode_of_carries ⟨hop, rfl, rfl⟩⟩

end Sys2Proof.Proofs
end

section
/-! Stores (43_store.md). ST and STR are one store at the address they compute; STI is a store at the pointer that its read
gives. Each store keeps the frame of `writesStoreAtEveryAddress`, at the device addresses too. -/

namespace Sys2Proof.Machine

/-- An instruction that ends in a store, begun in `s` and past its reads in `u`, completes with that store. -/
theorem exists_storesWord_of_exec {i : Instr} {s u : State} {addr v : Word} (h : exec i s = .next (u.store addr v)) :
    ∃ t, exec i s = .next t ∧ StoresWord u t addr v :=
  ⟨_, h, Proofs.writesStoreAtEveryAddress u addr v⟩

section
variable (a : Reg) (off : BitVec 9) (s : State)

theorem exec_st : exec (.st a off) s = .next (s.store (s.pc + sext off) (s.reg a)) := rfl

theorem exec_str (b : Reg) (off : BitVec 6) : exec (.str a b off) s = .next (s.store (s.reg b + sext off) (s.reg a)) := rfl

theorem exec_sti : exec (.sti a off) s =
    readThen (s.pc + sext off) (.storePointer a) s fun p u => .next (u.store p (u.reg a)) := rfl

end

section
variable {off : BitVec 9} {s : State} (a : Reg)

/-- STI is a store at its pointer, in the state `u` that reading the pointer leaves: `s`, or `s` with one answer taken. -/
theorem exists_storesWord_of_sti_pointer {p : Word} {u : State} (h : memRead (s.pc + sext off) s = .value p u) :
    ∃ t, exec (.sti a off) s = .next t ∧ StoresWord u t p (u.reg a) :=
  exists_storesWord_of_exec (by rw [exec_sti, readThen_value h])

theorem exec_sti_pointer_stops {f : Fault} (h : s.pc + sext off = 0xFE02) (hread : memRead 0xFE02 s = .stops f) :
    exec (.sti a off) s = .fault f := by
  rw [exec_sti, h, readThen_stops hread]

theorem exec_sti_pointer_unanswered (h : s.pc + sext off = 0xFE02) (hin : s.input = []) :
    exec (.sti a off) s = .next { s with wait := some (.storePointer a) } := by
  rw [exec_sti, h, readThen_waits (memRead_data_unanswered hin)]
  rfl

end

end Sys2Proof.Machine

namespace Sys2Proof.Proofs

open Sys2Proof.Machine Sys2Proof.Laws

/-- Settles O32: ST is one store at its address, and a word carries it by its opcode alone. -/
theorem stStoresPcRelative : Obligations.StStoresPcRelative :=
  ⟨fun a off s => exists_storesWord_of_exec (exec_st a off s), fun _ hop => decode_of_carries ⟨hop, rfl, rfl⟩⟩

/-- Settles O33, by what the read of the pointer comes to: at an ordinary address, at 0xFE00 and on a byte of the host it gives
a pointer to store at; else it stops or waits. -/
theorem stiStoresThroughThePointer : Obligations.StiStoresThroughThePointer := by
  refine ⟨fun a off s h => ?ordinary, fun a off s h => ?status, fun a off s b rest h hin hb => ?byte,
    fun a off s rest h hin => ?cancel, fun a off s rest h hin => ?fail, fun a off s h hin => ?unanswered,
    fun _ hop => decode_of_carries ⟨hop, rfl, rfl⟩⟩
  case ordinary => exact exists_storesWord_of_sti_pointer a (memRead_ordinary h.1 h.2 s)
  case status => exact exists_storesWord_of_sti_pointer a (h ▸ memRead_status s)
  case byte => exact exists_storesWord_of_sti_pointer a (h ▸ memRead_data_byte hin hb)
  case cancel => exact exec_sti_pointer_stops a h (memRead_data_cancel hin)
  case fail => exact exec_sti_pointer_stops a h (memRead_data_fail hin)
  case unanswered => exact exec_sti_pointer_unanswered a h hin

/-- Settles O34: STR is one store at its address, its source and base read before it, and a word carries it by its opcode
alone. -/
theorem strStoresBaseRelative : Obligations.StrStoresBaseRelative :=
  ⟨fun a b off s => exists_storesWord_of_exec (exec_str a s b off), fun _ hop => decode_of_carries ⟨hop, rfl, rfl, rfl⟩⟩

end Sys2Proof.Proofs
end

section
/-! System instructions (44_system.md). What a host that accepts an event lets happen is said here once; the words of a string
are emitted one by one; each TRAP is the link and then its vector's behaviour. -/

namespace Sys2Proof.Machine

/-! The OUTPUT port where the host accepts (R205). -/

/-- `s` after the host has accepted the events `es`. -/
def State.emit (s : State) (es : List OutputEvent) : State :=
  { s with output := s.output ++ es, outputRoom := s.outputRoom.map (· - es.length) }

/-- The host accepts `n` more events. -/
def State.HasRoom (s : State) (n : Nat) : Prop := ∀ room, s.outputRoom = some room → n ≤ room

section
variable {s : State} {n : Nat} (es : List OutputEvent)

theorem State.emit_nil (s : State) : s.emit [] = s := by
  simp [State.emit]

theorem State.emit_emit (s : State) (es' : List OutputEvent) : (s.emit es).emit es' = s.emit (es ++ es') := by
  simp [State.emit, Function.comp_def, Nat.sub_sub]

theorem State.HasRoom.hostAccepts (h : s.HasRoom (n + 1)) : s.HostAccepts := fun h0 => by
  simpa using h 0 h0

theorem State.HasRoom.emit (h : s.HasRoom (n + es.length)) : (s.emit es).HasRoom n := by
  intro room hroom
  obtain ⟨before, hbefore, rfl⟩ := Option.map_eq_some_iff.1 hroom
  exact Nat.le_sub_of_add_le (h before hbefore)

end

section
variable {s : State} (e : OutputEvent) (k : State → Result)

theorem outputThen_accepted (h : s.HostAccepts) : outputThen e s k = k (s.emit [e]) := by
  unfold outputThen State.emit
  split
  case h_1 hroom => simp [hroom]
  case h_2 room hroom => simp [hroom]
  case h_3 hroom => exact absurd hroom h

theorem outputThen_failed (h : s.outputRoom = some 0) : outputThen e s k = .fault (.ioFailure .output s.output) := by
  simp only [outputThen, h]

end

/-! A string (R155). -/

theorem lowByte_eq_setWidth (w : Word) : lowByte w = w.setWidth 8 :=
  (BitVec.setWidth_eq_extractLsb' (by decide)).symm

section
variable {a v : Word} {s t u : State} {ws : List Word}

/-- A read does not depend on the OUTPUT port. -/
theorem memRead_emit (es : List OutputEvent) (h : memRead a s = .value v u) :
    memRead a (s.emit es) = .value v (u.emit es) := by
  by_cases hdata : a = 0xFE02
  · rcases memRead_value h with ⟨hne, _⟩ | ⟨b, rest, _, hin, hb, rfl, rfl⟩
    · exact absurd hdata hne
    · exact hdata ▸ memRead_data_byte (s := s.emit es) hin hb
  by_cases hstatus : a = 0xFE00
  · subst hstatus
    cases h
    exact memRead_status _
  · rw [memRead_ordinary hstatus hdata] at h ⊢
    cases h
    rfl

theorem stringRead_emit (es : List OutputEvent) (h : StringRead a s ws t) : StringRead a (s.emit es) ws (t.emit es) := by
  induction ws generalizing a s with
  | nil => exact congrArg (State.emit · es) h
  | cons w ws ih =>
    obtain ⟨u, hread, hw, hrest⟩ := h
    exact ⟨u.emit es, memRead_emit es hread, hw, ih hrest⟩

/-- Stepping through a string, its next word being the first of the rest (R10: addresses wrap). -/
theorem add_one_add_ofNat (a : Word) (k : Nat) : a + 1 + BitVec.ofNat 16 k = a + BitVec.ofNat 16 (k + 1) := by
  rw [Nat.add_comm, BitVec.ofNat_add, BitVec.add_assoc]
  rfl

/-- The nonzero words of a string are emitted in their order, and printing goes on after them. -/
theorem printFrom_of_stringRead (h : StringRead a s ws t) (hroom : s.HasRoom ws.length) :
    printFrom a s = printFrom (a + BitVec.ofNat 16 ws.length) (t.emit (charsOf ws)) := by
  induction ws generalizing a s t with
  | nil =>
    cases h
    rw [charsOf, List.map_nil, State.emit_nil, List.length_nil]
    exact congrArg (printFrom · s) (BitVec.add_zero a).symm
  | cons w ws ih =>
    obtain ⟨u, hread, hw, hrest⟩ := h
    have huroom : u.HasRoom (ws.length + 1) := by
      obtain ⟨_, rfl⟩ := memRead_changes_only_input hread
      exact hroom
    have hword : printFrom a s = printFrom (a + 1) (u.emit (charsOf [w])) := by
      rw [printFrom_eq, readThen_value hread, printWord, if_neg hw, outputThen_accepted _ _ huroom.hostAccepts,
        lowByte_eq_setWidth]
      rfl
    rw [hword, ih (stringRead_emit _ hrest) (huroom.emit _), add_one_add_ofNat, State.emit_emit]
    rfl

/-- Words listed by their places from `a` on, none at a device address, are read as they are listed. -/
theorem stringRead_of_listed (hne : ∀ w ∈ ws, w ≠ 0) (hord : ∀ k ≤ ws.length, Ordinary (a + BitVec.ofNat 16 k))
    (hlisted : ∀ k (h : k < ws.length), s.mem.read (a + BitVec.ofNat 16 k) = ws[k]) : StringRead a s ws s := by
  induction ws generalizing a with
  | nil => rfl
  | cons w ws ih =>
    obtain ⟨hw, hne⟩ := List.forall_mem_cons.1 hne
    have hfirst : memRead a s = .value w s := by
      have ha : Ordinary a := by simpa using hord 0 (Nat.zero_le _)
      have hread : s.mem.read a = w := by simpa using hlisted 0 (Nat.zero_lt_succ _)
      rw [memRead_ordinary ha.1 ha.2, hread]
    refine ⟨s, hfirst, hw, ih hne (fun k hk => ?ordinary) fun k hk => ?listed⟩ <;> rw [add_one_add_ofNat]
    case ordinary => exact hord (k + 1) (Nat.succ_le_succ hk)
    case listed => exact hlisted (k + 1) (Nat.succ_lt_succ hk)

/-- A zero word ends the string. -/
theorem printFrom_zero (ha : Ordinary a) (hzero : s.mem.read a = 0) : printFrom a s = .next s := by
  rw [printFrom_eq, readThen_ordinary ha.1 ha.2, printWord, if_pos hzero]

end

/-! TRAP: the link, then the vector's behaviour (R151). -/

/-- `t` is `s` with the current PC in R7, the halted flag, the pending request and the ports apart. -/
def LinksOnly (s t : State) : Prop :=
  t.reg .r7 = s.pc ∧ RegsKeptBut .r7 s t ∧ t.cc = s.cc ∧ t.pc = s.pc ∧ MemoryKept s t

theorem linksOnly_enterTrap (s : State) : LinksOnly s s.enterTrap :=
  have others_kept : RegsKeptBut .r7 s s.enterTrap := fun _ hq => s.reg_enterTrap_other hq
  have memory_kept : MemoryKept s s.enterTrap := fun _ => rfl
  ⟨s.reg_enterTrap_link, others_kept, s.cc_enterTrap, s.pc_enterTrap, memory_kept⟩

/-- What is emitted after the link is outside its frame. -/
theorem linksOnly_enterTrap_emit (s : State) (es : List OutputEvent) : LinksOnly s (s.enterTrap.emit es) :=
  linksOnly_enterTrap s

theorem emitsOnly_emit (e : OutputEvent) (s : State) : EmitsOnly e s.halted s (s.emit [e]) := ⟨rfl, rfl, rfl, rfl, rfl⟩

theorem emitsOnly_emit_halt (e : OutputEvent) (s : State) : EmitsOnly e true s (s.emit [e]).halt :=
  ⟨rfl, rfl, rfl, rfl, rfl⟩

section
variable (s : State)

/-- R153: whether `cc` is written is the open parameter `getc_sets_cc`. -/
theorem exec_trap_getc : exec (.trap 0x20) s = .next { s.enterTrap.setReg .r0 Config.getcChar with
    cc := if Config.getcSetsCc = false then s.cc else ccOf Config.getcChar } := by
  rw [exec, execTrap, dispatchTrap, if_pos rfl, trapGetc]
  cases Config.getcSetsCc <;> rfl

theorem exec_trap_out :
    exec (.trap 0x21) s = outputThen (.char ((s.reg .r0).setWidth 8)) s.enterTrap .next := by
  rw [exec, execTrap, dispatchTrap_out, trapOut, lowByte_eq_setWidth]
  rfl

theorem exec_trap_puts : exec (.trap 0x22) s = printFrom (s.reg .r0) s.enterTrap := by
  rw [exec, execTrap, dispatchTrap_puts]
  rfl

theorem exec_trap_halt : exec (.trap 0x25) s = outputThen .haltNotice s.enterTrap fun u => .next u.halt := by
  rw [exec, execTrap, dispatchTrap_halt]
  rfl

theorem exec_trap_other {v : BitVec 8} (h0 : v ≠ 0x20) (h1 : v ≠ 0x21) (h2 : v ≠ 0x22) (h5 : v ≠ 0x25) :
    exec (.trap v) s = .next s.enterTrap := by
  rw [exec, execTrap, dispatchTrap, if_neg h0, if_neg h1, if_neg h2, if_neg h5]
  rfl

theorem exec_rti (x : BitVec 12) : exec (.rti x) s = .fault (.unsupportedInstruction (encode (.rti x)) s.output) := rfl

theorem exec_unknown (x : BitVec 12) :
    exec (.unknown x) s = outputThen (.diagnostic (.unknownOpcode (encode (.unknown x)))) s fun u => .next u.halt := rfl

end

/-- No vector's behaviour writes R7 after the link. -/
theorem reg_link_of_dispatchTrap {v : BitVec 8} {s t : State} (h : dispatchTrap v s = .next t) :
    t.reg .r7 = s.reg .r7 := by
  rcases dispatchTrap_cases v s with ⟨_, hv⟩ | ⟨_, hv⟩ | ⟨_, hv⟩ | ⟨_, hv⟩ | ⟨_, hv⟩ <;> rw [hv] at h
  · cases h
    cases Config.getcSetsCc <;> rfl
  · obtain ⟨_, ⟨⟩⟩ := outputThen_next h
    rfl
  · obtain ⟨hregs, _⟩ := printFrom_next h
    exact congrArg (Regs.get · .r7) hregs
  · obtain ⟨_, ⟨⟩⟩ := outputThen_next h
    rfl
  · cases h
    rfl

theorem mem_destinations_trap {v : BitVec 8} {q : Reg} (h : q ∈ destinations (.trap v)) :
    q = .r7 ∨ q = .r0 ∧ v = 0x20 := by
  rw [destinations] at h
  split at h
  case isTrue hv => simpa [hv] using h
  case isFalse => exact .inl (List.mem_singleton.1 h)

end Sys2Proof.Machine

namespace Sys2Proof.Laws

/-! The words that RTI and the unknown opcode record (R200). -/

section
variable (x : BitVec 12)

theorem encode_rti : encode (.rti x) = 0x8000 ||| x.setWidth 16 := by
  rw [encode, place, place, BitVec.shiftLeft_zero]
  rfl

theorem encode_unknown : encode (.unknown x) = 0xD000 ||| x.setWidth 16 := by
  rw [encode, place, place, BitVec.shiftLeft_zero]
  rfl

end

/-- Where R86 ignores no bit, a word that carries an instruction is its encoding. -/
theorem encode_eq_of_carries {ir : Word} {i : Instr} (h : Carries ir i) (hbits : operandBits i = 0xFFFF) : encode i = ir := by
  rw [encode_of_carries h, hbits]
  exact BitVec.and_allOnes

end Sys2Proof.Laws

namespace Sys2Proof.Proofs

open Sys2Proof.Machine Sys2Proof.Laws

/-- Settles O35: RTI records its encoding, which for a word that carries it is the word itself, no bit being ignored. -/
theorem rtiAborts : Obligations.RtiAborts := by
  refine ⟨fun x s => by rw [exec_rti, encode_rti], fun ir s hop => ?_⟩
  have hcarries : Carries ir (.rti (fieldRest ir)) := ⟨hop, rfl⟩
  rw [decode_of_carries hcarries, exec_rti, encode_eq_of_carries hcarries rfl]

/-- Settles O36: no vector's behaviour touches the link, and the rest is what TRAP may write. -/
theorem trapLinksAndStaysInLine : Obligations.TrapLinksAndStaysInLine := by
  refine ⟨fun v s t h => ⟨reg_link_of_dispatchTrap (s := s.enterTrap) h, (exec_within h).pc rfl, fun q h7 h0 => ?_,
    (exec_accesses h).memoryKept⟩, fun _ hop => decode_of_carries ⟨hop, rfl⟩⟩
  refine (exec_within h).regs q fun hq => ?_
  rcases mem_destinations_trap hq with hr7 | ⟨hr0, hv⟩
  · exact h7 hr7
  · exact h0 hr0 hv

/-- Settles O39: R155's loop is `printFrom_eq`, by what the read comes to. -/
theorem putsIsTheLoopOfItsRule : Obligations.PutsIsTheLoopOfItsRule := by
  refine ⟨exec_trap_puts, fun a s => ?_⟩
  rw [printFrom_eq]
  cases hread : memRead a s with
  | value w u => rw [readThen_value hread, printWord, lowByte_eq_setWidth]
  | waits => exact readThen_waits hread
  | stops f => exact readThen_stops hread

/-- Settles O40: the words are read as they are listed and emitted in their order, and the zero word ends the string. -/
theorem putsEmitsTheString : Obligations.PutsEmitsTheString := by
  intro s ws hroom hne hord hlisted hzero
  have hread : StringRead (s.reg .r0) s.enterTrap ws s.enterTrap := stringRead_of_listed hne hord hlisted
  have hrun : exec (.trap 0x22) s = .next (s.enterTrap.emit (charsOf ws)) := by
    rw [exec_trap_puts, printFrom_of_stringRead hread hroom]
    exact printFrom_zero (hord _ le_rfl) hzero
  obtain ⟨hlink, hregs, hcc, hpc, hmem⟩ := linksOnly_enterTrap_emit s (charsOf ws)
  refine ⟨_, hrun, rfl, hlink, hregs, hcc, hpc, hmem, rfl, rfl, rfl, ?_⟩
  simp [State.emit, charsOf]

/-- Settles O43: the record of a word that carries the unknown opcode is the word itself, no bit being ignored. -/
theorem unknownOpcodeHaltsCleanly : Obligations.UnknownOpcodeHaltsCleanly := by
  refine ⟨fun x s haccepts => ?accepted, fun x s hfull => (exec_unknown s x).trans (outputThen_failed _ _ hfull),
    fun ir hop => ?decoded⟩
  case accepted =>
    rw [← encode_unknown, exec_unknown, outputThen_accepted _ _ haccepts]
    exact ⟨_, rfl, emitsOnly_emit_halt _ s, fun _ => rfl, rfl, rfl, fun _ => rfl⟩
  case decoded =>
    have hcarries : Carries ir (.unknown (fieldRest ir)) := ⟨hop, rfl⟩
    exact ⟨fieldRest ir, decode_of_carries hcarries, (encode_unknown _).symm.trans (encode_eq_of_carries hcarries rfl)⟩

/-- Settles O37: the write of R0 comes after the link, and `cc` is as its parameter says. -/
theorem getcWritesThePlaceholder : Obligations.GetcWritesThePlaceholder := by
  intro s
  have others_kept : ∀ q, q ≠ .r0 → q ≠ .r7 → (s.enterTrap.setReg .r0 Config.getcChar).reg q = s.reg q :=
    fun q h0 h7 => (State.reg_setReg_other _ _ h0).trans (s.reg_enterTrap_other h7)
  exact ⟨_, exec_trap_getc s, rfl, rfl, others_kept, rfl, rfl, fun _ => rfl, rfl, rfl, rfl, rfl, rfl⟩

/-- Settles O38: one event after the link. -/
theorem outEmitsTheLowByte : Obligations.OutEmitsTheLowByte := by
  refine ⟨fun s haccepts => ?_, fun s hfull => (exec_trap_out s).trans (outputThen_failed _ _ hfull)⟩
  rw [exec_trap_out, outputThen_accepted (s := s.enterTrap) _ _ haccepts]
  exact ⟨_, rfl, emitsOnly_emit _ s.enterTrap, linksOnly_enterTrap_emit s _⟩

/-- Settles O41: one event after the link, then the halt. -/
theorem haltEmitsTheNoticeAndHalts : Obligations.HaltEmitsTheNoticeAndHalts := by
  refine ⟨fun s haccepts => ?_, fun s hfull => (exec_trap_halt s).trans (outputThen_failed _ _ hfull)⟩
  rw [exec_trap_halt, outputThen_accepted (s := s.enterTrap) _ _ haccepts]
  exact ⟨_, rfl, emitsOnly_emit_halt _ s.enterTrap, linksOnly_enterTrap_emit s [.haltNotice]⟩

/-- Settles O42: the link alone. -/
theorem otherVectorsOnlyLink : Obligations.OtherVectorsOnlyLink := by
  intro v s h0 h1 h2 h5
  obtain ⟨hlink, hregs, hcc, hpc, hmem⟩ := linksOnly_enterTrap s
  exact ⟨_, exec_trap_other s h0 h1 h2 h5, hlink, hregs, hcc, hpc, hmem, rfl, rfl, rfl, rfl, rfl⟩

end Sys2Proof.Proofs
end

section
/-! The faults of R202. A read stops at 0xFE02 alone, an event where the host fails it, and a string at the first of its words
that one of the two meets. -/

namespace Sys2Proof.Machine

section
variable {s : State} {f : Fault}

/-! The shared operations. -/

theorem memRead_stops_inputFault {a : Word} (h : memRead a s = .stops f) : a = 0xFE02 ∧ InputFault s f s.output :=
  (memRead_stops h).imp_right Or.symm

theorem outputThen_fault {e : OutputEvent} {k : State → Result} (h : outputThen e s k = .fault f) :
    (s.outputRoom = some 0 ∧ f = .ioFailure .output s.output) ∨ (s.HostAccepts ∧ k (s.emit [e]) = .fault f) := by
  by_cases hfull : s.outputRoom = some 0
  · rw [outputThen_failed e k hfull] at h
    cases h
    exact .inl ⟨hfull, rfl⟩
  · exact .inr ⟨hfull, outputThen_accepted e k hfull ▸ h⟩

/-- An operation that cannot stop after its OUTPUT event. -/
theorem outputThen_fault_last {e : OutputEvent} {k : State → State} (h : (outputThen e s fun u => .next (k u)) = .fault f) :
    s.outputRoom = some 0 ∧ f = .ioFailure .output s.output :=
  (outputThen_fault h).resolve_right nofun

theorem loadFrom_fault {addr : Word} {a : Reg} (h : loadFrom addr a s = .fault f) :
    addr = 0xFE02 ∧ InputFault s f s.output := by
  rcases readThen_fault h with ⟨_, _, _, hnext⟩ | hstop
  · cases hnext
  · exact memRead_stops_inputFault hstop

/-- A pointer that is read at 0xFE02 is a byte of the host, and no load stops there. -/
theorem loadIndirectFrom_fault {addr : Word} {a : Reg} (h : loadIndirectFrom addr a s = .fault f) :
    (addr = 0xFE02 ∨ memRead addr s = .value 0xFE02 s) ∧ InputFault s f s.output := by
  rcases readThen_fault h with ⟨p, u, hread, hload⟩ | hstop
  · obtain ⟨rfl, hfault⟩ := loadFrom_fault hload
    rcases memRead_value hread with ⟨_, rfl⟩ | ⟨b, _, _, _, _, hbyte, _⟩
    · exact ⟨.inr hread, hfault⟩
    · exact absurd hbyte.symm (ordinary_byte _).2
  · exact (memRead_stops_inputFault hstop).imp_left .inl

theorem storeIndirectFrom_fault {addr : Word} {a : Reg} (h : storeIndirectFrom addr a s = .fault f) :
    addr = 0xFE02 ∧ InputFault s f s.output := by
  rcases readThen_fault h with ⟨_, _, _, hnext⟩ | hstop
  · cases hnext
  · exact memRead_stops_inputFault hstop

end

/-! A string. -/

/-- Printing the string at `a` raises `f`: its words are read in `s`, and its characters are emitted after the OUTPUT history of
`p` to the host as it is in `p`. TRAP 0x22 does so with `s` before its link and `p` after it. -/
def PrintFault (a : Word) (s p : State) (f : Fault) : Prop :=
  ∃ ws t, StringRead a s ws t ∧ p.HasRoom ws.length ∧
    ((a + BitVec.ofNat 16 ws.length = 0xFE02 ∧ InputFault t f (p.output ++ charsOf ws)) ∨
      ∃ w u, memRead (a + BitVec.ofNat 16 ws.length) t = .value w u ∧ w ≠ 0 ∧
        p.outputRoom = some ws.length ∧ f = .ioFailure .output (p.output ++ charsOf ws))

theorem printFault_enterTrap_iff (s : State) (f : Fault) :
    PrintFault (s.reg .r0) s s.enterTrap f ↔ StringFault s f := Iff.rfl

section
variable {a w : Word} {s p u : State} {f : Fault}

/-- A read depends on the memory and the host's answers alone. -/
theorem memRead_of_same (hmem : p.mem = s.mem) (hin : p.input = s.input) (h : memRead a p = .value w u) :
    memRead a s = .value w { s with input := u.input } := by
  by_cases hdata : a = 0xFE02
  · rcases memRead_value h with ⟨hne, _⟩ | ⟨b, rest, _, hbyte, hb, rfl, rfl⟩
    · exact absurd hdata hne
    · exact hdata ▸ memRead_data_byte (hin ▸ hbyte) hb
  by_cases hstatus : a = 0xFE00
  · subst hstatus
    cases h
    rw [memRead_status, hin]
  · rw [memRead_ordinary hstatus hdata] at h ⊢
    cases h
    rw [hmem, hin]

theorem inputFault_of_same {out : List OutputEvent} (hin : p.input = s.input) (h : InputFault p f out) :
    InputFault s f out := by
  unfold InputFault at h ⊢
  rwa [← hin]

theorem State.HasRoom.of_emit {e : OutputEvent} {n : Nat} (hacc : p.HostAccepts) (h : (p.emit [e]).HasRoom n) :
    p.HasRoom (n + 1) := by
  intro room hroom
  have hpos : room ≠ 0 := fun h0 => hacc (h0 ▸ hroom)
  have hle : n ≤ room - 1 := h (room - 1) (congrArg (Option.map (· - [e].length)) hroom)
  omega

theorem outputRoom_of_emit {e : OutputEvent} {n : Nat} (hacc : p.HostAccepts) (h : (p.emit [e]).outputRoom = some n) :
    p.outputRoom = some (n + 1) := by
  obtain ⟨room, hroom, rfl⟩ := Option.map_eq_some_iff.1 h
  have hpos : room ≠ 0 := fun h0 => hacc (h0 ▸ hroom)
  rw [hroom, List.length_singleton, Nat.sub_add_cancel (Nat.pos_of_ne_zero hpos)]

/-- The fault is the first read's. -/
theorem printFault_of_inputFault (ha : a = 0xFE02) (h : InputFault s f p.output) : PrintFault a s p f :=
  ⟨[], s, rfl, fun _ _ => Nat.zero_le _, .inl ⟨by simpa using ha, by simpa [charsOf] using h⟩⟩

/-- The fault is the first character's. -/
theorem printFault_of_outputRoom (hread : memRead a s = .value w u) (hw : w ≠ 0) (hfull : p.outputRoom = some 0) :
    PrintFault a s p (.ioFailure .output p.output) :=
  ⟨[], s, rfl, fun _ _ => Nat.zero_le _, .inr ⟨w, u, by simpa using hread, hw, hfull, by simp [charsOf]⟩⟩

/-- The fault comes after the first character. -/
theorem PrintFault.cons (hread : memRead a s = .value w u) (hw : w ≠ 0) (hacc : p.HostAccepts)
    (h : PrintFault (a + 1) u (p.emit [.char (w.setWidth 8)]) f) : PrintFault a s p f := by
  obtain ⟨ws, t, hrest, hroom, hcause⟩ := h
  have hout : (p.emit [.char (w.setWidth 8)]).output ++ charsOf ws = p.output ++ charsOf (w :: ws) :=
    List.append_assoc _ _ _
  rw [add_one_add_ofNat, hout] at hcause
  refine ⟨w :: ws, t, ⟨u, hread, hw, hrest⟩, hroom.of_emit hacc, hcause.imp_right ?_⟩
  rintro ⟨w', u', hread', hw', hfull, hf⟩
  exact ⟨w', u', hread', hw', outputRoom_of_emit hacc hfull, hf⟩

theorem printWord_fault (h : printWord a w p = .fault f) :
    w ≠ 0 ∧ ((p.outputRoom = some 0 ∧ f = .ioFailure .output p.output) ∨
      (p.HostAccepts ∧ printFrom (a + 1) (p.emit [.char (w.setWidth 8)]) = .fault f)) := by
  rw [printWord, lowByte_eq_setWidth] at h
  split at h
  case isTrue => cases h
  case isFalse hw => exact ⟨hw, outputThen_fault h⟩

/-- R155's loop, by the reads the string has left. -/
theorem printFrom_fault (hmem : p.mem = s.mem) (hin : p.input = s.input) (h : printFrom a p = .fault f) :
    PrintFault a s p f := by
  induction hn : stringReads a p generalizing a s p with
  | zero => exact absurd hn (stringReads_pos a p).ne'
  | succ n ih =>
    rw [printFrom_eq] at h
    rcases readThen_fault h with ⟨w, q, hread, hword⟩ | hstop
    · have hread_s := memRead_of_same hmem hin hread
      have hleft : stringReads (a + 1) q = n := Nat.succ.inj ((stringReads_read hread).symm.trans hn)
      obtain ⟨rest, rfl⟩ := memRead_changes_only_input hread
      obtain ⟨hw, ⟨hfull, rfl⟩ | ⟨hacc, hgo⟩⟩ := printWord_fault hword
      · exact printFault_of_outputRoom hread_s hw hfull
      · have hrest := ih (p := { p with input := rest }.emit [.char (w.setWidth 8)])
          (s := { s with input := rest }) hmem rfl hgo hleft
        exact hrest.cons hread_s hw hacc
    · obtain ⟨ha, hfault⟩ := memRead_stops_inputFault hstop
      exact printFault_of_inputFault ha (inputFault_of_same hin hfault)

end

/-! Each instruction. -/

/-- TRAP by its vector; the link changes nothing a fault depends on. -/
theorem exec_trap_fault {v : BitVec 8} {s : State} {f : Fault} (h : exec (.trap v) s = .fault f) :
    FaultAllowed (.trap v) s f := by
  rcases dispatchTrap_cases v s.enterTrap with ⟨rfl, _⟩ | ⟨rfl, _⟩ | ⟨rfl, _⟩ | ⟨rfl, _⟩ | ⟨⟨h0, h1, h2, h5⟩, _⟩
  · rw [exec_trap_getc] at h
    cases h
  · rw [exec_trap_out] at h
    exact .inl ⟨rfl, outputThen_fault_last (s := s.enterTrap) (k := id) h⟩
  · rw [exec_trap_puts] at h
    exact .inr (.inl ⟨rfl, (printFault_enterTrap_iff s f).1 (printFrom_fault rfl rfl h)⟩)
  · rw [exec_trap_halt] at h
    exact .inr (.inr ⟨rfl, outputThen_fault_last (s := s.enterTrap) h⟩)
  · rw [exec_trap_other s h0 h1 h2 h5] at h
    cases h

end Sys2Proof.Machine

namespace Sys2Proof.Proofs

open Sys2Proof.Machine Sys2Proof.Laws

/-- Settles O44: LD, LDR, LDI and STI stop in a read, RTI always, TRAP by its vector and the unknown opcode in its event. -/
theorem faultsAreThoseOfTheTable : Obligations.FaultsAreThoseOfTheTable := by
  intro i s f h
  cases i with
  | ld a off => exact loadFrom_fault h
  | ldi a off => exact loadIndirectFrom_fault h
  | ldr a b off => exact loadFrom_fault h
  | sti a off => exact storeIndirectFrom_fault h
  | rti x =>
    rw [exec_rti, encode_rti] at h
    cases h
    rfl
  | trap v => exact exec_trap_fault h
  | unknown x => exact outputThen_fault_last (exec_unknown s x ▸ h)
  | addReg | addImm | andReg | andImm | not | br | jmp | jsr | jsrr | lea | st | str => cases h

end Sys2Proof.Proofs
end

section
/-! The new engine (R231): what holds of it whatever its registers and its `cc` hold. Reset is one. -/

namespace Sys2Proof.Machine

section
variable (regInit : Reg → Word) (ccInit : BitVec 3)

@[simp] theorem State.reg_construct (r : Reg) : (State.construct regInit ccInit).reg r = regInit r := by
  cases r <;> rfl

@[simp] theorem State.mem_read_construct (a : Word) : (State.construct regInit ccInit).mem.read a = 0 :=
  Memory.read_empty a

/-- A new engine waits for nothing, so only the form of its memory is left to say. -/
theorem State.construct_inv : (State.construct regInit ccInit).Inv := by
  have hwait : (State.construct regInit ccInit).wait = none := rfl
  refine ⟨State.construct_mem_wf regInit ccInit, fun _ => hwait, fun hfetch => ?_⟩
  rw [hwait] at hfetch
  cases hfetch

end

end Sys2Proof.Machine

namespace Sys2Proof.Proofs

open Sys2Proof.Machine

/-- Settles O54: reset is a new engine, and every new engine has the invariant. -/
theorem resetHasTheInvariant : Obligations.ResetHasTheInvariant :=
  State.construct_inv Config.regInit Config.ccInit

/-- Settles O56: the registers and the empty memory by their reads, every other field by its value in the new engine. -/
theorem resetIsANewEngine : Obligations.ResetIsANewEngine := by
  refine ⟨fun regInit ccInit => ?_, Config.regInit, Config.ccInit, rfl⟩
  exact ⟨State.reg_construct regInit ccInit, rfl, rfl, rfl, State.mem_read_construct regInit ccInit, rfl, rfl⟩

end Sys2Proof.Proofs
end
